-- ==== Sys2Proof/Word.lean ====
section
/-! DEFINITION. The word of the block and its two named values (spec/00_scope.md R4, R5). -/

namespace Sys2Proof

/-- A word: 64 bits, bit 0 the least significant (R4: W = 64; R5: LSB-0). -/
abbrev Word := BitVec 64

/-- A nibble: the 4-bit field that holds one counter (R4: CW = 4; R8). -/
abbrev Nibble := BitVec 4

/-- `ZERO` of R5. -/
abbrev Word.zero : Word := 0x0000000000000000#64

/-- `ONES` of R5. -/
abbrev Word.ones : Word := 0xFFFFFFFFFFFFFFFF#64

end Sys2Proof
end

