-- ==== Sys2Proof/Syntax.lean ====
section
/-! DEFINITION. The 27 commands of the block (spec/30_encoding.md R54), their operands, and what crosses the
command port (R51). -/

namespace Sys2Proof

/-- A selector that names a bit-vector holder, `BV[0]` to `BV[3]` (R53, R57; `v0`..`v3` of R63). -/
inductive BvSel where
  | v0 | v1 | v2 | v3
  deriving DecidableEq, Repr

/-- A selector that names a counting-vector holder, `CV[0]` or `CV[1]` (R53, R57; `c0`, `c1` of R63). -/
inductive CvSel where
  | c0 | c1
  deriving DecidableEq, Repr

/-- A command with its operands, one constructor per row of spec/opcode_table.json. An immediate is a natural
number, unsigned and used as it stands (R5, R58); that it fits the 32-bit field is checked in WellFormed.
The write-data word `wd` is an operand of the two raw writes only (R60). -/
inductive Instr where
  /-- `nop` (R145) -/
  | nop
  /-- `bv.new rd, n` (R70) -/
  | bvNew (rd : BvSel) (n : Nat)
  /-- `bv.from_elem rd, n, bit` (R71) -/
  | bvFromElem (rd : BvSel) (n : Nat) (bit : Bool)
  /-- `bv.set rd, k` (R72) -/
  | bvSet (rd : BvSel) (k : Nat)
  /-- `bv.get rd, k` (R73) -/
  | bvGet (rd : BvSel) (k : Nat)
  /-- `bv.clear rd` (R74) -/
  | bvClear (rd : BvSel)
  /-- `bv.is_empty rd` (R75) -/
  | bvIsEmpty (rd : BvSel)
  /-- `bv.len rd` (R146) -/
  | bvLen (rd : BvSel)
  /-- `bv.rdw rd, i` (R147) -/
  | bvRdw (rd : BvSel) (i : Nat)
  /-- `bv.wrw rd, i, x` (R148) -/
  | bvWrw (rd : BvSel) (i : Nat) (x : Word)
  /-- `bv.or rd, ra, rb` (R92) -/
  | bvOr (rd ra rb : BvSel)
  /-- `bv.and rd, ra, rb` (R93) -/
  | bvAnd (rd ra rb : BvSel)
  /-- `bv.xor rd, ra, rb` (R94) -/
  | bvXor (rd ra rb : BvSel)
  /-- `bv.nand rd, ra, rb` (R95) -/
  | bvNand (rd ra rb : BvSel)
  /-- `bv.nor rd, ra, rb` (R96) -/
  | bvNor (rd ra rb : BvSel)
  /-- `bv.xnor rd, ra, rb` (R97) -/
  | bvXnor (rd ra rb : BvSel)
  /-- `bv.difference rd, ra, rb` (R98) -/
  | bvDifference (rd ra rb : BvSel)
  /-- `ss.new rd, n` (R110) -/
  | ssNew (rd : CvSel) (n : Nat)
  /-- `ss.get rd, s` (R111) -/
  | ssGet (rd : CvSel) (i : Nat)
  /-- `ss.slot_count rd` (R112) -/
  | ssSlotCount (rd : CvSel)
  /-- `ss.clear rd` (R114) -/
  | ssClear (rd : CvSel)
  /-- `ss.wr rd, s, x` (R149) -/
  | ssWr (rd : CvSel) (i : Nat) (x : Word)
  /-- `cv.counter_count rd` (R126) -/
  | cvCounterCount (rd : CvSel)
  /-- `cv.get rd, k` (R127) -/
  | cvGet (rd : CvSel) (k : Nat)
  /-- `cv.increment rd, k` (R128) -/
  | cvIncrement (rd : CvSel) (k : Nat)
  /-- `cv.decrement rd, k` (R130) -/
  | cvDecrement (rd : CvSel) (k : Nat)
  /-- `cv.clear rd` (R132) -/
  | cvClear (rd : CvSel)
  deriving DecidableEq, Repr

/-- What one acceptance at the command port delivers: the control word and the write-data word (R50, R51). -/
structure Command where
  /-- `cmd_cw` -/
  cw : Word
  /-- `cmd_wd` -/
  wd : Word
  deriving DecidableEq, Repr

end Sys2Proof
end

