-- ==== Sys2Proof/WellFormed.lean ====
section
/-! DEFINITION. Which terms of `Instr` are commands the control word can carry (spec/30_encoding.md R52, R58).
Selectors, the fill bit and the write-data word are in range by their types; an immediate must fit 32 bits. -/

namespace Sys2Proof

/-- The immediate field holds 0 .. 2^32 - 1 (R58). -/
def immFits (n : Nat) : Bool := decide (n < 2 ^ 32)

/-- A command is well formed when its immediate, if it has one, fits the field `imm` (R52, R58). -/
def Instr.wellFormed : Instr → Bool
  | .nop => true
  | .bvNew _ n => immFits n
  | .bvFromElem _ n _ => immFits n
  | .bvSet _ k => immFits k
  | .bvGet _ k => immFits k
  | .bvClear _ => true
  | .bvIsEmpty _ => true
  | .bvLen _ => true
  | .bvRdw _ i => immFits i
  | .bvWrw _ i _ => immFits i
  | .bvOr _ _ _ => true
  | .bvAnd _ _ _ => true
  | .bvXor _ _ _ => true
  | .bvNand _ _ _ => true
  | .bvNor _ _ _ => true
  | .bvXnor _ _ _ => true
  | .bvDifference _ _ _ => true
  | .ssNew _ n => immFits n
  | .ssGet _ i => immFits i
  | .ssSlotCount _ => true
  | .ssClear _ => true
  | .ssWr _ i _ => immFits i
  | .cvCounterCount _ => true
  | .cvGet _ k => immFits k
  | .cvIncrement _ k => immFits k
  | .cvDecrement _ k => immFits k
  | .cvClear _ => true

/-- Does the command read the write-data word? Only the two raw writes do (R60). -/
def Instr.usesWd : Instr → Bool
  | .bvWrw _ _ _ => true
  | .ssWr _ _ _ => true
  | .nop | .bvNew _ _ | .bvFromElem _ _ _ | .bvSet _ _ | .bvGet _ _ | .bvClear _ | .bvIsEmpty _ | .bvLen _
  | .bvRdw _ _ | .bvOr _ _ _ | .bvAnd _ _ _ | .bvXor _ _ _ | .bvNand _ _ _ | .bvNor _ _ _ | .bvXnor _ _ _
  | .bvDifference _ _ _ | .ssNew _ _ | .ssGet _ _ | .ssSlotCount _ | .ssClear _ | .cvCounterCount _
  | .cvGet _ _ | .cvIncrement _ _ | .cvDecrement _ _ | .cvClear _ => false

end Sys2Proof
end

