-- ==== Sys2Proof/Decode.lean ====
section
/-! DEFINITION. Decoding a control word, and encoding a command (spec/30_encoding.md R52 to R60).

Decoding is R55's: look for the row of the opcode map whose `(mask, match)` satisfies `cw & mask = match`; it
reads no state. The encoder is written from the field positions of R52 and the formats of R53. -/

namespace Sys2Proof

/-! ### The fields of the control word (R52) -/

/-- The seven fields of R52, most significant first. -/
structure Fields where
  op : BitVec 8
  rd : BitVec 4
  ra : BitVec 4
  rb : BitVec 4
  fn : BitVec 4
  rsv : BitVec 8
  imm : BitVec 32
  deriving DecidableEq, Repr

/-- The fields of a control word, read from the positions of R52. -/
def Fields.ofWord (cw : Word) : Fields where
  op := cw.extractLsb' 56 8
  rd := cw.extractLsb' 52 4
  ra := cw.extractLsb' 48 4
  rb := cw.extractLsb' 44 4
  fn := cw.extractLsb' 40 4
  rsv := cw.extractLsb' 32 8
  imm := cw.extractLsb' 0 32

/-- The control word with the given fields: `OO D A B F RR IIIIIIII` of R52. -/
def Fields.toWord (f : Fields) : Word :=
  f.op ++ f.rd ++ f.ra ++ f.rb ++ f.fn ++ f.rsv ++ f.imm

/-! ### Selectors (R53, R57) -/

/-- The 4-bit selector field that names a bit-vector holder. -/
def BvSel.toField : BvSel → BitVec 4
  | .v0 => 0
  | .v1 => 1
  | .v2 => 2
  | .v3 => 3

/-- The bit-vector holder a selector field names; its two upper bits are 0, which the row's mask has tested. -/
def BvSel.ofField (f : BitVec 4) : BvSel :=
  match f.toNat % 4 with
  | 0 => .v0
  | 1 => .v1
  | 2 => .v2
  | _ => .v3

/-- The 4-bit selector field that names a counting-vector holder. -/
def CvSel.toField : CvSel → BitVec 4
  | .c0 => 0
  | .c1 => 1

/-- The counting-vector holder a selector field names; its three upper bits are 0, which the mask has tested. -/
def CvSel.ofField (f : BitVec 4) : CvSel :=
  match f.toNat % 2 with
  | 0 => .c0
  | _ => .c1

/-! ### Formats and the opcode map (R53, R54) -/

/-- The seven formats of R53. -/
inductive Format where
  | z | bt | bti | btif | br3 | ct | cti
  deriving DecidableEq, Repr

/-- `mask` of R53: a 1 at every bit the format fixes. -/
def Format.mask : Format → Word
  | .z => 0xFFFFFFFFFFFFFFFF#64
  | .bt => 0xFFCFFFFFFFFFFFFF#64
  | .bti => 0xFFCFFFFF00000000#64
  | .btif => 0xFFCFFEFF00000000#64
  | .br3 => 0xFFCCCFFFFFFFFFFF#64
  | .ct => 0xFFEFFFFFFFFFFFFF#64
  | .cti => 0xFFEFFFFF00000000#64

/-- A row of the opcode map (R54): opcode, format, and the command its fields and the write-data word give. -/
structure Row where
  op : BitVec 8
  fmt : Format
  build : Fields → Word → Instr

/-- `match` of R54: the opcode in bits 63:56 and 0 elsewhere. -/
def Row.matchWord (r : Row) : Word := r.op.setWidth 64 <<< 56

/-- `cw & mask = match` (R53, R55). -/
def Row.accepts (r : Row) (cw : Word) : Bool := cw &&& r.fmt.mask == r.matchWord

/-- Family 0x0_, system (R54). -/
def systemRows : List Row :=
  [⟨0x00, .z, fun _ _ => .nop⟩]

/-- Family 0x1_, bit vector (R54). -/
def bitVectorRows : List Row :=
  [⟨0x10, .bti, fun f _ => .bvNew (.ofField f.rd) f.imm.toNat⟩,
   ⟨0x11, .btif, fun f _ => .bvFromElem (.ofField f.rd) f.imm.toNat (f.fn.getLsbD 0)⟩,
   ⟨0x12, .bti, fun f _ => .bvSet (.ofField f.rd) f.imm.toNat⟩,
   ⟨0x13, .bti, fun f _ => .bvGet (.ofField f.rd) f.imm.toNat⟩,
   ⟨0x14, .bt, fun f _ => .bvClear (.ofField f.rd)⟩,
   ⟨0x15, .bt, fun f _ => .bvIsEmpty (.ofField f.rd)⟩,
   ⟨0x16, .bt, fun f _ => .bvLen (.ofField f.rd)⟩,
   ⟨0x17, .bti, fun f _ => .bvRdw (.ofField f.rd) f.imm.toNat⟩,
   ⟨0x18, .bti, fun f wd => .bvWrw (.ofField f.rd) f.imm.toNat wd⟩]

/-- Family 0x2_, bit-vector boolean algebra (R54). -/
def booleanRows : List Row :=
  [⟨0x20, .br3, fun f _ => .bvOr (.ofField f.rd) (.ofField f.ra) (.ofField f.rb)⟩,
   ⟨0x21, .br3, fun f _ => .bvAnd (.ofField f.rd) (.ofField f.ra) (.ofField f.rb)⟩,
   ⟨0x22, .br3, fun f _ => .bvXor (.ofField f.rd) (.ofField f.ra) (.ofField f.rb)⟩,
   ⟨0x23, .br3, fun f _ => .bvNand (.ofField f.rd) (.ofField f.ra) (.ofField f.rb)⟩,
   ⟨0x24, .br3, fun f _ => .bvNor (.ofField f.rd) (.ofField f.ra) (.ofField f.rb)⟩,
   ⟨0x25, .br3, fun f _ => .bvXnor (.ofField f.rd) (.ofField f.ra) (.ofField f.rb)⟩,
   ⟨0x26, .br3, fun f _ => .bvDifference (.ofField f.rd) (.ofField f.ra) (.ofField f.rb)⟩]

/-- Family 0x3_, slot storage (R54). -/
def slotStorageRows : List Row :=
  [⟨0x30, .cti, fun f _ => .ssNew (.ofField f.rd) f.imm.toNat⟩,
   ⟨0x31, .cti, fun f _ => .ssGet (.ofField f.rd) f.imm.toNat⟩,
   ⟨0x32, .ct, fun f _ => .ssSlotCount (.ofField f.rd)⟩,
   ⟨0x33, .ct, fun f _ => .ssClear (.ofField f.rd)⟩,
   ⟨0x34, .cti, fun f wd => .ssWr (.ofField f.rd) f.imm.toNat wd⟩]

/-- Family 0x4_, counting vector (R54). -/
def countingVectorRows : List Row :=
  [⟨0x40, .ct, fun f _ => .cvCounterCount (.ofField f.rd)⟩,
   ⟨0x41, .cti, fun f _ => .cvGet (.ofField f.rd) f.imm.toNat⟩,
   ⟨0x42, .cti, fun f _ => .cvIncrement (.ofField f.rd) f.imm.toNat⟩,
   ⟨0x43, .cti, fun f _ => .cvDecrement (.ofField f.rd) f.imm.toNat⟩,
   ⟨0x44, .ct, fun f _ => .cvClear (.ofField f.rd)⟩]

/-- The opcode map of R54: 27 rows. -/
def opcodeMap : List Row :=
  systemRows ++ bitVectorRows ++ booleanRows ++ slotStorageRows ++ countingVectorRows

/-! ### Decoding (R55, R56) -/

/-- Why a control word is no command. Both are `IllegalCommand` at the port (R56); the two names are the
model's own and safe (log entry 15). -/
inductive Illegal where
  /-- R56 (a): the opcode is not in the map. -/
  | unassignedOpcode
  /-- R56 (b) to (e): a listed opcode, with a bit its format fixes at 0 set: an unused field, a selector out of
  range, an undefined fill code or init policy. -/
  | fixedBitSet
  deriving DecidableEq, Repr

/-- What decoding answers. -/
inductive Decoded where
  | legal (i : Instr)
  | illegal (why : Illegal)
  deriving DecidableEq, Repr

/-- Why no row accepts a control word. -/
def illegalReason (cw : Word) : Illegal :=
  if opcodeMap.any (fun r => r.op == (Fields.ofWord cw).op) then .fixedBitSet else .unassignedOpcode

/-- Decoding (R55): the row that accepts the control word, with its fields; none is illegal (R56). It reads no
state, and `wd` plays no part in legality. -/
def decode (c : Command) : Decoded :=
  match opcodeMap.find? (fun r => r.accepts c.cw) with
  | some r => .legal (r.build (Fields.ofWord c.cw) c.wd)
  | none => .illegal (illegalReason c.cw)

/-- The command decoding gives, if any. -/
def Decoded.instr? : Decoded → Option Instr
  | .legal i => some i
  | .illegal _ => none

/-- The command of an opcode-table word: bits 63:0 are `cw`, and `wd` is what stands above them (the table gives
`wd` no bits, so it is 0 for every row; log entry 4). The block has no byte order (spec/20_memory.md R34). -/
def Command.ofTableWord (nbits w : Nat) : Command :=
  let v := w % 2 ^ nbits
  ⟨BitVec.ofNat 64 v, BitVec.ofNat 64 (v / 2 ^ 64)⟩

/-- The command the decoder reads from an opcode-table word of `nbits` bits. -/
def decodeTableWord (nbits w : Nat) : Option Instr :=
  (decode (Command.ofTableWord nbits w)).instr?

/-! ### Encoding (R52, R53, R54) -/

/-- Format BT: `rd`. -/
def wordBt (op : BitVec 8) (rd : BvSel) : Word :=
  Fields.toWord ⟨op, rd.toField, 0, 0, 0, 0, 0⟩

/-- Format BTI: `rd`, `imm`. -/
def wordBti (op : BitVec 8) (rd : BvSel) (imm : Nat) : Word :=
  Fields.toWord ⟨op, rd.toField, 0, 0, 0, 0, BitVec.ofNat 32 imm⟩

/-- Format BTIF: `rd`, `imm`, `fn[0]`. -/
def wordBtif (op : BitVec 8) (rd : BvSel) (imm : Nat) (bit : Bool) : Word :=
  Fields.toWord ⟨op, rd.toField, 0, 0, (BitVec.ofBool bit).setWidth 4, 0, BitVec.ofNat 32 imm⟩

/-- Format BR3: `rd`, `ra`, `rb`. -/
def wordBr3 (op : BitVec 8) (rd ra rb : BvSel) : Word :=
  Fields.toWord ⟨op, rd.toField, ra.toField, rb.toField, 0, 0, 0⟩

/-- Format CT: `rd`. -/
def wordCt (op : BitVec 8) (rd : CvSel) : Word :=
  Fields.toWord ⟨op, rd.toField, 0, 0, 0, 0, 0⟩

/-- Format CTI: `rd`, `imm`. -/
def wordCti (op : BitVec 8) (rd : CvSel) (imm : Nat) : Word :=
  Fields.toWord ⟨op, rd.toField, 0, 0, 0, 0, BitVec.ofNat 32 imm⟩

/-- The control word of a command (R52 to R54). -/
def encodeWord : Instr → Word
  | .nop => 0x0000000000000000#64
  | .bvNew rd n => wordBti 0x10 rd n
  | .bvFromElem rd n bit => wordBtif 0x11 rd n bit
  | .bvSet rd k => wordBti 0x12 rd k
  | .bvGet rd k => wordBti 0x13 rd k
  | .bvClear rd => wordBt 0x14 rd
  | .bvIsEmpty rd => wordBt 0x15 rd
  | .bvLen rd => wordBt 0x16 rd
  | .bvRdw rd i => wordBti 0x17 rd i
  | .bvWrw rd i _ => wordBti 0x18 rd i
  | .bvOr rd ra rb => wordBr3 0x20 rd ra rb
  | .bvAnd rd ra rb => wordBr3 0x21 rd ra rb
  | .bvXor rd ra rb => wordBr3 0x22 rd ra rb
  | .bvNand rd ra rb => wordBr3 0x23 rd ra rb
  | .bvNor rd ra rb => wordBr3 0x24 rd ra rb
  | .bvXnor rd ra rb => wordBr3 0x25 rd ra rb
  | .bvDifference rd ra rb => wordBr3 0x26 rd ra rb
  | .ssNew rd n => wordCti 0x30 rd n
  | .ssGet rd i => wordCti 0x31 rd i
  | .ssSlotCount rd => wordCt 0x32 rd
  | .ssClear rd => wordCt 0x33 rd
  | .ssWr rd i _ => wordCti 0x34 rd i
  | .cvCounterCount rd => wordCt 0x40 rd
  | .cvGet rd k => wordCti 0x41 rd k
  | .cvIncrement rd k => wordCti 0x42 rd k
  | .cvDecrement rd k => wordCti 0x43 rd k
  | .cvClear rd => wordCt 0x44 rd

/-- The write-data word of a command: the operand of the two raw writes; any value is allowed for the others
(R60), and the encoder gives 0 (log entry 14). -/
def encodeWd : Instr → Word
  | .bvWrw _ _ x => x
  | .ssWr _ _ x => x
  | .nop | .bvNew _ _ | .bvFromElem _ _ _ | .bvSet _ _ | .bvGet _ _ | .bvClear _ | .bvIsEmpty _ | .bvLen _
  | .bvRdw _ _ | .bvOr _ _ _ | .bvAnd _ _ _ | .bvXor _ _ _ | .bvNand _ _ _ | .bvNor _ _ _ | .bvXnor _ _ _
  | .bvDifference _ _ _ | .ssNew _ _ | .ssGet _ _ | .ssSlotCount _ | .ssClear _ | .cvCounterCount _
  | .cvGet _ _ | .cvIncrement _ _ | .cvDecrement _ _ | .cvClear _ => 0

/-- The command the host issues for an instruction: its control word and its write-data word (R63). -/
def encode (i : Instr) : Command := ⟨encodeWord i, encodeWd i⟩

end Sys2Proof
end

