-- ==== Sys2Proof/Config.lean ====
section
/-! DEFINITION. The parameters of a build (spec/00_scope.md R4, spec/92_eei_decisions.md D3).

W = 64, CW = 4, CPW = 16, CMAX = 15, NBV = 4 and NCV = 2 are fixed (R4) and stand in the types and in the
addressing arithmetic. MAXW and MAXS are OPEN: the model takes them as an argument, carried in the state
because a step is a function of the state alone (log entry 1). The model has no free value: every result of
every command is stated (R9). -/

namespace Sys2Proof.Config

/-- The two OPEN parameters of R4. -/
structure Params where
  /-- MAXW: the largest word count a bit-vector holder can hold. -/
  maxW : Nat
  /-- MAXS: the largest slot count a counting-vector holder can hold. -/
  maxS : Nat
  deriving DecidableEq, Repr

/-- The value R4 gives this hardware: 1024 for both. -/
def Params.default : Params := ⟨1024, 1024⟩

/-- The bounds R4 puts on the parameters: 1 <= MAXW <= 2^26, 1 <= MAXS <= 2^28. -/
abbrev Params.Legal (p : Params) : Prop :=
  1 ≤ p.maxW ∧ p.maxW ≤ 2 ^ 26 ∧ 1 ≤ p.maxS ∧ p.maxS ≤ 2 ^ 28

end Sys2Proof.Config
end

