-- ==== Sys2Proof/Machine/State.lean ====
section
/-! DEFINITION. The state of the block as plain data (spec/10_state.md R10, spec/30_encoding.md R50, R51), the
outcome of a command (spec/00_scope.md R7), and the state after reset (spec/10_state.md R24). -/

namespace Sys2Proof.Machine

/-- The errors a command can end in (R7, R160). None of them stops the machine: each is the response of the
command that failed (R170). -/
inductive Error where
  /-- R162: an index is not below the number of addressable units. -/
  | indexOutOfRange
  /-- R163: the two sources of a boolean command differ in length. -/
  | lengthMismatch
  /-- R164: the control word matches no row of the opcode map. -/
  | illegalCommand
  /-- R165: a construction asks for more words or slots than the holder can have. -/
  | capacityExceeded
  deriving DecidableEq, Repr

/-- A response (R7, R61): `respond(d)` gives data, `raise E` gives an error, whose data is 0 (`Response.data`). -/
inductive Response where
  | ok (data : Word)
  | error (e : Error)
  deriving DecidableEq, Repr

/-- What the host does at the block's inputs (R51, R196). -/
inductive HostInput where
  /-- It presents a command, and holds it until the block accepts it. -/
  | command (c : Command)
  /-- It takes the response presented (`rsp_ready`). -/
  | takeResponse
  /-- It pulses `rst` (R185). -/
  | reset
  deriving DecidableEq, Repr

/-- The six holders of R10, each a sequence of exactly `len` words: a word at or above a length is not state
(R21), so equal memories are equal data. -/
structure Memory where
  /-- `BV[0]` -/
  bv0 : List Word
  /-- `BV[1]` -/
  bv1 : List Word
  /-- `BV[2]` -/
  bv2 : List Word
  /-- `BV[3]` -/
  bv3 : List Word
  /-- `CV[0]` -/
  cv0 : List Word
  /-- `CV[1]` -/
  cv1 : List Word
  deriving DecidableEq, Repr

/-- The state a step works on: the architectural state `mem` (R10), the response port (R50, R51), and the inputs
and outputs of the step function (R22), which the model carries here (log entries 1, 3, 9). -/
structure State where
  /-- The six holders: the whole architectural state (R10). -/
  mem : Memory
  /-- The response presented and not yet taken; `rsp_valid` is 1 iff there is one (R51). -/
  rsp : Option Response
  /-- MAXW and MAXS (R4); no step writes them (R20). -/
  params : Config.Params
  /-- What the host does next, oldest first; a command that the block cannot accept yet waits while the others are
  done (R51, R196; log entry 5). -/
  inputs : List HostInput
  /-- The responses the host has taken, oldest first (R40, R193). -/
  taken : List Response
  deriving DecidableEq, Repr

/-- Why the machine stops with a fault: never. No command hangs and there is no stuck state (R192); an error of
the spec is a response, not a stop (R170). The type has no constructor, so no step can fault (safe; log entry
19). -/
inductive Fault where
  deriving DecidableEq, Repr

/-- Why the model refuses. -/
inductive Refusal where
  /-- Raised by an arm of `exec` for a command that has no meaning yet; no arm does (safe: the model would stop
  where the hardware goes on). -/
  | notModelled (mnemonic : String)
  deriving DecidableEq, Repr

/-- Every holder empty: length 0 and no word (R24). -/
def Memory.empty : Memory := ⟨[], [], [], [], [], []⟩

/-- The block right after reset (R24, R185): every holder empty, no response pending. The host has issued
nothing and taken nothing yet, and the parameters have the value R4 gives (log entries 1, 3, 4, 9). -/
def State.reset : State where
  mem := .empty
  rsp := none
  params := .default
  inputs := []
  taken := []

end Sys2Proof.Machine
end

