-- ==== Sys2Proof/Machine/Operands.lean ====
section
/-! DEFINITION. Addressing arithmetic and word functions (spec/20_memory.md R31 to R33, spec/41_bit_vector_boolean.md
R92 to R98, spec/43_counting_vector.md R125). All indices are natural numbers, so no range test wraps (R33, R46). -/

namespace Sys2Proof.Machine

/-! ### Words of a holder (R6) -/

/-- `MemRead(holder:i, 64)` (R6). The commands use it only where the index has been checked to be below the
length; elsewhere no word exists, and the value given there is never used (log entry 11). -/
def memRead (ws : List Word) (i : Nat) : Word := ws.getD i .zero

/-- `MemWrite(holder:i, 64, x)` (R6): word i becomes x, nothing else changes. -/
def memWrite (ws : List Word) (i : Nat) (x : Word) : List Word := ws.set i x

/-- `fill(n, x)` (R6): n words x. -/
def fill (n : Nat) (x : Word) : List Word := List.replicate n x

/-- `zeros(n)` (R6): n words ZERO. -/
def zeros (n : Nat) : List Word := fill n .zero

/-- Every word of a holder zeroed, the length kept (R74, R114). -/
def zeroed (ws : List Word) : List Word := zeros ws.length

/-! ### Bits (R31) -/

/-- `total_bits`: word count times 64 (R11). -/
def totalBits (ws : List Word) : Nat := ws.length * 64

/-- The word that holds bit k. -/
def bitWord (k : Nat) : Nat := k / 64

/-- `bit_in_word` of bit k, in LSB-0 numbering. -/
def bitInWord (k : Nat) : Nat := k % 64

/-- The single-bit mask of bit k: `1 << b`. -/
def bitMask (k : Nat) : Word := 1#64 <<< bitInWord k

/-- Bit k of a holder: `x[b]` of word `wi` (R73). -/
def bitAt (ws : List Word) (k : Nat) : Bool := (memRead ws (bitWord k)).getLsbD (bitInWord k)

/-! ### Counters (R32) -/

/-- `counter_count`: slot count times 16 (R14). -/
def counterCount (ws : List Word) : Nat := ws.length * 16

/-- The slot that holds counter k. -/
def counterSlot (k : Nat) : Nat := k / 16

/-- The nibble position of counter k; position 0 is the most significant nibble (R32, 90_conflicts.md C1). -/
def nibblePos (k : Nat) : Nat := k % 16

/-- `sh = (15 - p) * 4`. -/
def nibbleShift (p : Nat) : Nat := (15 - p) * 4

/-- `fm = 0xF << sh`. -/
def fieldMask (p : Nat) : Word := 0xF#64 <<< nibbleShift p

/-- The counter at position p of a slot word: `(x >> sh)[3:0]`. -/
def nibbleAt (p : Nat) (x : Word) : Nibble := (x >>> nibbleShift p).extractLsb' 0 4

/-- A slot word with the counter at position p replaced: `(x & ~fm) | (zext_64(v) << sh)`. -/
def withNibble (p : Nat) (v : Nibble) (x : Word) : Word :=
  (x &&& ~~~fieldMask p) ||| (v.setWidth 64 <<< nibbleShift p)

/-- `ctr(c, k)` of R125. -/
def counterAt (ws : List Word) (k : Nat) : Nibble := nibbleAt (nibblePos k) (memRead ws (counterSlot k))

/-! ### Transforms of a slot word (R113, R128, R130) -/

/-- The answer of a transform: a replacement word, or "leave unchanged" (R113). -/
inductive Candidate where
  | replace (y : Word)
  | unchanged
  deriving DecidableEq, Repr

/-- `IncT(p)` (R128): unchanged at 15. -/
def incT (p : Nat) (x : Word) : Candidate :=
  if nibbleAt p x = 15#4 then .unchanged else .replace (withNibble p (nibbleAt p x + 1#4) x)

/-- `DecT(p)` (R130): unchanged at 0. -/
def decT (p : Nat) (x : Word) : Candidate :=
  if nibbleAt p x = 0#4 then .unchanged else .replace (withNibble p (nibbleAt p x - 1#4) x)

/-! ### Word functions of the boolean commands (R92 to R98) -/

/-- `a | b` (R92) -/
def wordOr (a b : Word) : Word := a ||| b

/-- `a & b` (R93) -/
def wordAnd (a b : Word) : Word := a &&& b

/-- `a ^ b` (R94) -/
def wordXor (a b : Word) : Word := a ^^^ b

/-- `~(a & b)` (R95) -/
def wordNand (a b : Word) : Word := ~~~(a &&& b)

/-- `~(a | b)` (R96) -/
def wordNor (a b : Word) : Word := ~~~(a ||| b)

/-- `~(a ^ b)` (R97) -/
def wordXnor (a b : Word) : Word := ~~~(a ^^^ b)

/-- `a & ~b` (R98); a is self, b is other. -/
def wordDifference (a b : Word) : Word := a &&& ~~~b

/-- `[ f(a[i], b[i]) | i < n ]` for two sequences of the same length n (R90). -/
def combine (f : Word → Word → Word) (a b : List Word) : List Word := List.zipWith f a b

end Sys2Proof.Machine
end

