-- ==== Sys2Proof/Machine/Flags.lean ====
section
/-! DEFINITION. The block has no flags (spec/10_state.md R19): what a flag would say is in the command's own
response. This file computes those values: status codes (spec/60_exceptions.md R160), the response's two parts
(spec/30_encoding.md R61), and the data words that carry a truth value or a count. -/

namespace Sys2Proof.Machine

/-- The status code of an error (R160). -/
def Error.code : Error → BitVec 4
  | .indexOutOfRange => 1
  | .lengthMismatch => 2
  | .illegalCommand => 3
  | .capacityExceeded => 4

/-- `rsp_status` (R61, R160): 0 is OK. -/
def Response.status : Response → BitVec 4
  | .ok _ => 0
  | .error e => e.code

/-- `rsp_data` (R61): the result on success, 0 on every error (R161). -/
def Response.data : Response → Word
  | .ok d => d
  | .error _ => .zero

/-- A truth value as response data: 1 or 0. It carries the bit of `bv.get` (R73), the answer of `bv.is_empty`
(R75) and the committed bit of the counter commands (R128, R130). -/
def boolData (b : Bool) : Word := if b then 1#64 else 0#64

/-- A count as response data: `zext_64` of a length or of length x 16 (R112, R126, R146); at most 2^32, so exact
(R46). -/
def countData (n : Nat) : Word := BitVec.ofNat 64 n

/-- A counter value as response data (R127). -/
def nibbleData (v : Nibble) : Word := v.setWidth 64

end Sys2Proof.Machine
end

