-- ==== Sys2Proof/Machine/Ops.lean ====
section
/-! DEFINITION. The operations the commands share: holders (spec/10_state.md R10, R12), the two ways a command
ends (spec/00_scope.md R7, spec/60_exceptions.md R170), the one check each command has (R167), and Update
(spec/42_slot_storage.md R113). -/

namespace Sys2Proof.Machine

/-! ### Holders (R10, R57) -/

/-- `BV[v]` -/
def Memory.bv (m : Memory) : BvSel → List Word
  | .v0 => m.bv0
  | .v1 => m.bv1
  | .v2 => m.bv2
  | .v3 => m.bv3

/-- `BV[v] <- ws`: length and every word (R6). -/
def Memory.setBv (m : Memory) (v : BvSel) (ws : List Word) : Memory :=
  match v with
  | .v0 => { m with bv0 := ws }
  | .v1 => { m with bv1 := ws }
  | .v2 => { m with bv2 := ws }
  | .v3 => { m with bv3 := ws }

/-- `CV[c]` -/
def Memory.cv (m : Memory) : CvSel → List Word
  | .c0 => m.cv0
  | .c1 => m.cv1

/-- `CV[c] <- ws`: length and every slot (R6). -/
def Memory.setCv (m : Memory) (c : CvSel) (ws : List Word) : Memory :=
  match c with
  | .c0 => { m with cv0 := ws }
  | .c1 => { m with cv1 := ws }

/-- Every holder within its capacity (R10): the one condition on a memory. The lists are canonical as they stand,
since a holder has exactly `len` words (R21). -/
def Memory.wf (p : Config.Params) (m : Memory) : Bool :=
  decide (m.bv0.length ≤ p.maxW) && decide (m.bv1.length ≤ p.maxW) && decide (m.bv2.length ≤ p.maxW) &&
  decide (m.bv3.length ≤ p.maxW) && decide (m.cv0.length ≤ p.maxS) && decide (m.cv1.length ≤ p.maxS)

/-- `BV[v] <- ws` in a state. -/
def State.setBv (s : State) (v : BvSel) (ws : List Word) : State := { s with mem := s.mem.setBv v ws }

/-- `CV[c] <- ws` in a state. -/
def State.setCv (s : State) (c : CvSel) (ws : List Word) : State := { s with mem := s.mem.setCv c ws }

/-- A response presented at the response port (R51). -/
def State.present (s : State) (r : Response) : State := { s with rsp := some r }

/-! ### The two ways a command ends (R7) -/

/-- `respond(d)` (R7): status OK, data d. -/
def respond (d : Word) (s : State) : Host.Outcome State Fault Refusal := .next (s.present (.ok d))

/-- `raise E` (R7): what the spec has for taking an exception (R170). Nothing is saved, no holder changes, control
goes nowhere; the error is the command's response, and the block is then ready for the next command exactly as
after a success, so there is nothing to return from (R171). -/
def raise (e : Error) (s : State) : Host.Outcome State Fault Refusal := .next (s.present (.error e))

/-! ### The one check of a command (R167) -/

/-- An index must be below the number of addressable units (R33, R162), compared as naturals. -/
@[inline] def withIndex (k limit : Nat) (s : State) (go : Host.Outcome State Fault Refusal) :
    Host.Outcome State Fault Refusal :=
  if k < limit then go else raise .indexOutOfRange s

/-- A count must not exceed the holder's capacity (R165). Inlined, as `withIndex` is, so that a run on a computer
builds nothing for a count that is refused. -/
@[inline] def withCapacity (n capacity : Nat) (s : State) (go : Host.Outcome State Fault Refusal) :
    Host.Outcome State Fault Refusal :=
  if n ≤ capacity then go else raise .capacityExceeded s

/-! ### Shared executions -/

/-- A boolean command (R90, R91): both sources are read before the destination is replaced. -/
def execBoolean (f : Word → Word → Word) (rd ra rb : BvSel) (s : State) : Host.Outcome State Fault Refusal :=
  if (s.mem.bv ra).length = (s.mem.bv rb).length then
    respond .zero (s.setBv rd (combine f (s.mem.bv ra) (s.mem.bv rb)))
  else raise .lengthMismatch s

/-- Every slot of a counting-vector holder zeroed (R114, R132). -/
def execSlotsClear (rd : CvSel) (s : State) : Host.Outcome State Fault Refusal :=
  respond .zero (s.setCv rd (zeroed (s.mem.cv rd)))

/-- `Update(c, s, t)` (R113): the state after, and whether the slot was written. -/
def update (c : CvSel) (i : Nat) (t : Word → Candidate) (s : State) : State × Bool :=
  match t (memRead (s.mem.cv c) i) with
  | .replace y => (s.setCv c (memWrite (s.mem.cv c) i y), true)
  | .unchanged => (s, false)

/-- A counter command (R128, R130): the range check, Update with the transform at the counter's position, and the
committed bit as data. -/
def execCounter (t : Nat → Word → Candidate) (rd : CvSel) (k : Nat) (s : State) :
    Host.Outcome State Fault Refusal :=
  withIndex k (counterCount (s.mem.cv rd)) s
    (respond (boolData (update rd (counterSlot k) (t (nibblePos k)) s).2)
      (update rd (counterSlot k) (t (nibblePos k)) s).1)

end Sys2Proof.Machine
end

