-- ==== Sys2Proof/Machine/BitVector.lean ====
section
/-! DEFINITION. Bit vector commands: construct, set, get, clear, is_empty (spec/40_bit_vector.md R70 to R75). -/

namespace Sys2Proof.Machine

/-- `bv.new rd, n` (R70) -/
def execBvNew (rd : BvSel) (n : Nat) (s : State) : Host.Outcome State Fault Refusal :=
  withCapacity n s.params.maxW s (respond .zero (s.setBv rd (zeros n)))

/-- `bv.from_elem rd, n, bit` (R71) -/
def execBvFromElem (rd : BvSel) (n : Nat) (bit : Bool) (s : State) : Host.Outcome State Fault Refusal :=
  withCapacity n s.params.maxW s (respond .zero (s.setBv rd (fill n (if bit then .ones else .zero))))

/-- `bv.set rd, k` (R72) -/
def execBvSet (rd : BvSel) (k : Nat) (s : State) : Host.Outcome State Fault Refusal :=
  withIndex k (totalBits (s.mem.bv rd)) s
    (respond .zero
      (s.setBv rd (memWrite (s.mem.bv rd) (bitWord k) (memRead (s.mem.bv rd) (bitWord k) ||| bitMask k))))

/-- `bv.get rd, k` (R73) -/
def execBvGet (rd : BvSel) (k : Nat) (s : State) : Host.Outcome State Fault Refusal :=
  withIndex k (totalBits (s.mem.bv rd)) s (respond (boolData (bitAt (s.mem.bv rd) k)) s)

/-- `bv.clear rd` (R74) -/
def execBvClear (rd : BvSel) (s : State) : Host.Outcome State Fault Refusal :=
  respond .zero (s.setBv rd (zeroed (s.mem.bv rd)))

/-- `bv.is_empty rd` (R75): the structural length only, not the bits. -/
def execBvIsEmpty (rd : BvSel) (s : State) : Host.Outcome State Fault Refusal :=
  respond (boolData (decide ((s.mem.bv rd).length = 0))) s

end Sys2Proof.Machine
end

