-- ==== Sys2Proof/Machine/Boolean.lean ====
section
/-! DEFINITION. The seven word-wise boolean commands (spec/41_bit_vector_boolean.md R90 to R98). -/

namespace Sys2Proof.Machine

/-- `bv.or rd, ra, rb` (R92) -/
def execBvOr (rd ra rb : BvSel) (s : State) : Host.Outcome State Fault Refusal :=
  execBoolean wordOr rd ra rb s

/-- `bv.and rd, ra, rb` (R93) -/
def execBvAnd (rd ra rb : BvSel) (s : State) : Host.Outcome State Fault Refusal :=
  execBoolean wordAnd rd ra rb s

/-- `bv.xor rd, ra, rb` (R94) -/
def execBvXor (rd ra rb : BvSel) (s : State) : Host.Outcome State Fault Refusal :=
  execBoolean wordXor rd ra rb s

/-- `bv.nand rd, ra, rb` (R95) -/
def execBvNand (rd ra rb : BvSel) (s : State) : Host.Outcome State Fault Refusal :=
  execBoolean wordNand rd ra rb s

/-- `bv.nor rd, ra, rb` (R96) -/
def execBvNor (rd ra rb : BvSel) (s : State) : Host.Outcome State Fault Refusal :=
  execBoolean wordNor rd ra rb s

/-- `bv.xnor rd, ra, rb` (R97) -/
def execBvXnor (rd ra rb : BvSel) (s : State) : Host.Outcome State Fault Refusal :=
  execBoolean wordXnor rd ra rb s

/-- `bv.difference rd, ra, rb` (R98) -/
def execBvDifference (rd ra rb : BvSel) (s : State) : Host.Outcome State Fault Refusal :=
  execBoolean wordDifference rd ra rb s

end Sys2Proof.Machine
end

