-- ==== Sys2Proof/Machine/CountingVector.lean ====
section
/-! DEFINITION. Counting vector commands (spec/43_counting_vector.md R126 to R132). -/

namespace Sys2Proof.Machine

/-- `cv.counter_count rd` (R126) -/
def execCvCounterCount (rd : CvSel) (s : State) : Host.Outcome State Fault Refusal :=
  respond (countData (counterCount (s.mem.cv rd))) s

/-- `cv.get rd, k` (R127) -/
def execCvGet (rd : CvSel) (k : Nat) (s : State) : Host.Outcome State Fault Refusal :=
  withIndex k (counterCount (s.mem.cv rd)) s (respond (nibbleData (counterAt (s.mem.cv rd) k)) s)

/-- `cv.increment rd, k` (R128) -/
def execCvIncrement (rd : CvSel) (k : Nat) (s : State) : Host.Outcome State Fault Refusal :=
  execCounter incT rd k s

/-- `cv.decrement rd, k` (R130) -/
def execCvDecrement (rd : CvSel) (k : Nat) (s : State) : Host.Outcome State Fault Refusal :=
  execCounter decT rd k s

/-- `cv.clear rd` (R132): the underlying storage's clear. -/
def execCvClear (rd : CvSel) (s : State) : Host.Outcome State Fault Refusal := execSlotsClear rd s

end Sys2Proof.Machine
end

