-- ==== Sys2Proof/Machine/HostAccess.lean ====
section
/-! DEFINITION. The added commands: nop, length and raw word access (spec/44_host_access.md R145 to R149). -/

namespace Sys2Proof.Machine

/-- `nop` (R145) -/
def execNop (s : State) : Host.Outcome State Fault Refusal := respond .zero s

/-- `bv.len rd` (R146) -/
def execBvLen (rd : BvSel) (s : State) : Host.Outcome State Fault Refusal :=
  respond (countData (s.mem.bv rd).length) s

/-- `bv.rdw rd, i` (R147) -/
def execBvRdw (rd : BvSel) (i : Nat) (s : State) : Host.Outcome State Fault Refusal :=
  withIndex i (s.mem.bv rd).length s (respond (memRead (s.mem.bv rd) i) s)

/-- `bv.wrw rd, i, x` (R148) -/
def execBvWrw (rd : BvSel) (i : Nat) (x : Word) (s : State) : Host.Outcome State Fault Refusal :=
  withIndex i (s.mem.bv rd).length s (respond .zero (s.setBv rd (memWrite (s.mem.bv rd) i x)))

/-- `ss.wr rd, s, x` (R149) -/
def execSsWr (rd : CvSel) (i : Nat) (x : Word) (s : State) : Host.Outcome State Fault Refusal :=
  withIndex i (s.mem.cv rd).length s (respond .zero (s.setCv rd (memWrite (s.mem.cv rd) i x)))

end Sys2Proof.Machine
end

