-- ==== Sys2Proof/Machine/SlotStorage.lean ====
section
/-! DEFINITION. Slot storage commands (spec/42_slot_storage.md R110 to R114). -/

namespace Sys2Proof.Machine

/-- `ss.new rd, n` (R110): the one init policy is zero fill; another policy code is an illegal control word. -/
def execSsNew (rd : CvSel) (n : Nat) (s : State) : Host.Outcome State Fault Refusal :=
  withCapacity n s.params.maxS s (respond .zero (s.setCv rd (zeros n)))

/-- `ss.get rd, s` (R111) -/
def execSsGet (rd : CvSel) (i : Nat) (s : State) : Host.Outcome State Fault Refusal :=
  withIndex i (s.mem.cv rd).length s (respond (memRead (s.mem.cv rd) i) s)

/-- `ss.slot_count rd` (R112) -/
def execSsSlotCount (rd : CvSel) (s : State) : Host.Outcome State Fault Refusal :=
  respond (countData (s.mem.cv rd).length) s

/-- `ss.clear rd` (R114) -/
def execSsClear (rd : CvSel) (s : State) : Host.Outcome State Fault Refusal := execSlotsClear rd s

end Sys2Proof.Machine
end

