-- ==== Sys2Proof/Machine/Dispatch.lean ====
section
/-! DEFINITION. One arm per command (spec/30_encoding.md R54). -/

namespace Sys2Proof.Machine

/-- The command's rule (spec/30_encoding.md R55: "then the command's own rule runs"). -/
def exec (i : Instr) (s : State) : Host.Outcome State Fault Refusal :=
  match i with
  | .nop => Sys2Proof.Machine.execNop s
  | .bvNew rd n => Sys2Proof.Machine.execBvNew rd n s
  | .bvFromElem rd n bit => Sys2Proof.Machine.execBvFromElem rd n bit s
  | .bvSet rd k => Sys2Proof.Machine.execBvSet rd k s
  | .bvGet rd k => Sys2Proof.Machine.execBvGet rd k s
  | .bvClear rd => Sys2Proof.Machine.execBvClear rd s
  | .bvIsEmpty rd => Sys2Proof.Machine.execBvIsEmpty rd s
  | .bvLen rd => Sys2Proof.Machine.execBvLen rd s
  | .bvRdw rd k => Sys2Proof.Machine.execBvRdw rd k s
  | .bvWrw rd k x => Sys2Proof.Machine.execBvWrw rd k x s
  | .bvOr rd ra rb => Sys2Proof.Machine.execBvOr rd ra rb s
  | .bvAnd rd ra rb => Sys2Proof.Machine.execBvAnd rd ra rb s
  | .bvXor rd ra rb => Sys2Proof.Machine.execBvXor rd ra rb s
  | .bvNand rd ra rb => Sys2Proof.Machine.execBvNand rd ra rb s
  | .bvNor rd ra rb => Sys2Proof.Machine.execBvNor rd ra rb s
  | .bvXnor rd ra rb => Sys2Proof.Machine.execBvXnor rd ra rb s
  | .bvDifference rd ra rb => Sys2Proof.Machine.execBvDifference rd ra rb s
  | .ssNew rd n => Sys2Proof.Machine.execSsNew rd n s
  | .ssGet rd k => Sys2Proof.Machine.execSsGet rd k s
  | .ssSlotCount rd => Sys2Proof.Machine.execSsSlotCount rd s
  | .ssClear rd => Sys2Proof.Machine.execSsClear rd s
  | .ssWr rd k x => Sys2Proof.Machine.execSsWr rd k x s
  | .cvCounterCount rd => Sys2Proof.Machine.execCvCounterCount rd s
  | .cvGet rd k => Sys2Proof.Machine.execCvGet rd k s
  | .cvIncrement rd k => Sys2Proof.Machine.execCvIncrement rd k s
  | .cvDecrement rd k => Sys2Proof.Machine.execCvDecrement rd k s
  | .cvClear rd => Sys2Proof.Machine.execCvClear rd s

end Sys2Proof.Machine
end

