-- ==== Sys2Proof/Machine/Port.lean ====
section
/-! DEFINITION. The command port, the response port and reset (spec/30_encoding.md R50, R51,
spec/70_reset_and_hazards.md R185, R186, R196), at the level of transactions: one input of the host is one
step (log entry 2). -/

namespace Sys2Proof.Machine

/-! ### The block's outputs (R50) -/

/-- `rsp_valid` -/
def State.rspValid (s : State) : Bool := s.rsp.isSome

/-- `cmd_ready`: 0 from the acceptance of a command until its response has been taken (R51). -/
def State.cmdReady (s : State) : Bool := s.rsp.isNone

/-- `rsp_status`, while a response is presented. -/
def State.rspStatus (s : State) : Option (BitVec 4) := s.rsp.map Response.status

/-- `rsp_data`, while a response is presented. -/
def State.rspData (s : State) : Option Word := s.rsp.map Response.data

/-! ### What each input does -/

/-- The state with other inputs still to come. -/
def State.withInputs (s : State) (is : List HostInput) : State := { s with inputs := is }

/-- The host takes the response presented (R51); with none presented, nothing is transferred (log entry 6). -/
def State.takeResponse (s : State) : State :=
  match s.rsp with
  | some r => { s with rsp := none, taken := s.taken ++ [r] }
  | none => s

/-- Reset (R185, R186): every holder empty, no response pending; the response of an abandoned command is never
taken. The parameters are of the build, and what the host does next or has taken is the host's (log entry 8). -/
def State.resetBlock (s : State) : State := { s with mem := .empty, rsp := none }

/-- An accepted command executed to completion (R7, R36, R55): decoded, then its own rule; a control word that is
no command fails with IllegalCommand (R56, R164). -/
def runCommand (c : Command) (s : State) : Host.Outcome State Fault Refusal :=
  match decode c with
  | .legal i => exec i s
  | .illegal _ => raise .illegalCommand s

/-- The input handled now, and those left: the oldest, but for the commands that must wait. A command is accepted only
while `cmd_ready` is 1; else the host holds it, with those it would present after it, and may still take the response
or reset (R51, R196; log entry 5). -/
def nextInput (ready : Bool) : List HostInput → Option (HostInput × List HostInput)
  | [] => none
  | .takeResponse :: is => some (.takeResponse, is)
  | .reset :: is => some (.reset, is)
  | .command c :: is =>
    if ready then some (.command c, is) else (nextInput ready is).map (fun (i, rest) => (i, .command c :: rest))

/-- The input of the host whose turn it is, handled. With none the block idles and loses no state (R174), and a
command that waits changes nothing (R191 (b); log entries 5, 7). -/
def handleInput (s : State) : Host.Outcome State Fault Refusal :=
  match nextInput s.cmdReady s.inputs with
  | none => .next s
  | some (.command c, rest) => runCommand c (s.withInputs rest)
  | some (.takeResponse, rest) => .next (s.withInputs rest).takeResponse
  | some (.reset, rest) => .next (s.withInputs rest).resetBlock

/-- The state with a command as the host's next input, any response presented before taken, so that the next step
accepts and runs it (log entry 4). -/
def State.issue (s : State) (c : Command) : State :=
  { s.takeResponse with inputs := .command c :: s.inputs }

/-! ### Runs (R40, R193) -/

/-- The host's inputs for a sequence of commands: each command, then the taking of its response. -/
def script : List Command → List HostInput
  | [] => []
  | c :: cs => .command c :: .takeResponse :: script cs

/-- `exec(state, cw, wd) -> (state', status, data)` of R7 and R22, on the architectural state alone: what a command
does to the holders, and its response. -/
def transact (p : Config.Params) (m : Memory) (c : Command) : Option (Memory × Response) :=
  match runCommand c { mem := m, rsp := none, params := p, inputs := [], taken := [] } with
  | .next t => t.rsp.map (fun r => (t.mem, r))
  | .fault _ => none
  | .refused _ => none

/-- `exec(...exec(exec(s, c1), c2)..., cn)` of R40: the holders after a sequence of commands, and the responses in
order. -/
def transactAll (p : Config.Params) (m : Memory) : List Command → Option (Memory × List Response)
  | [] => some (m, [])
  | c :: cs =>
    match transact p m c with
    | none => none
    | some (m', r) => (transactAll p m' cs).map (fun (m'', rs) => (m'', r :: rs))

end Sys2Proof.Machine
end

