-- ==== Sys2Proof/Machine/Step.lean ====
section
/-! DEFINITION. One step: the input of the host whose turn it is is handled (spec/20_memory.md R40). -/

namespace Sys2Proof.Machine

/-- One step of the block (R40, R51, R196). -/
def step (s : State) : Host.Outcome State Fault Refusal := handleInput s

/-- The state whose next step runs the command of an opcode-table word: the block fetches nothing (R18), so the
command is put where the host's next one stands (log entry 4). -/
def State.withFetchWord (s : State) (nbits w : Nat) : State := s.issue (Command.ofTableWord nbits w)

end Sys2Proof.Machine
end

