-- ==== Sys2Proof/Machine/Assembler.lean ====
section
/-! DEFINITION. The textual form of a command and the four pseudo-commands (spec/30_encoding.md R63, R64). There is
no toolchain (R63); the text exists to name commands. Numbers are written in decimal, one of the two forms R63
allows (log entry 20). -/

namespace Sys2Proof

/-- The name of a bit-vector holder in the text (R63). -/
def BvSel.text : BvSel → String
  | .v0 => "v0"
  | .v1 => "v1"
  | .v2 => "v2"
  | .v3 => "v3"

/-- The name of a counting-vector holder in the text (R63). -/
def CvSel.text : CvSel → String
  | .c0 => "c0"
  | .c1 => "c1"

/-- The mnemonic of R54. -/
def Instr.mnemonic : Instr → String
  | .nop => "nop"
  | .bvNew _ _ => "bv.new"
  | .bvFromElem _ _ _ => "bv.from_elem"
  | .bvSet _ _ => "bv.set"
  | .bvGet _ _ => "bv.get"
  | .bvClear _ => "bv.clear"
  | .bvIsEmpty _ => "bv.is_empty"
  | .bvLen _ => "bv.len"
  | .bvRdw _ _ => "bv.rdw"
  | .bvWrw _ _ _ => "bv.wrw"
  | .bvOr _ _ _ => "bv.or"
  | .bvAnd _ _ _ => "bv.and"
  | .bvXor _ _ _ => "bv.xor"
  | .bvNand _ _ _ => "bv.nand"
  | .bvNor _ _ _ => "bv.nor"
  | .bvXnor _ _ _ => "bv.xnor"
  | .bvDifference _ _ _ => "bv.difference"
  | .ssNew _ _ => "ss.new"
  | .ssGet _ _ => "ss.get"
  | .ssSlotCount _ => "ss.slot_count"
  | .ssClear _ => "ss.clear"
  | .ssWr _ _ _ => "ss.wr"
  | .cvCounterCount _ => "cv.counter_count"
  | .cvGet _ _ => "cv.get"
  | .cvIncrement _ _ => "cv.increment"
  | .cvDecrement _ _ => "cv.decrement"
  | .cvClear _ => "cv.clear"

/-- The operands of a command in the order of R54's "operands" column (R63). -/
def Instr.operands : Instr → List String
  | .nop => []
  | .bvNew rd n => [rd.text, toString n]
  | .bvFromElem rd n bit => [rd.text, toString n, if bit then "1" else "0"]
  | .bvSet rd k => [rd.text, toString k]
  | .bvGet rd k => [rd.text, toString k]
  | .bvClear rd => [rd.text]
  | .bvIsEmpty rd => [rd.text]
  | .bvLen rd => [rd.text]
  | .bvRdw rd i => [rd.text, toString i]
  | .bvWrw rd i x => [rd.text, toString i, toString x.toNat]
  | .bvOr rd ra rb => [rd.text, ra.text, rb.text]
  | .bvAnd rd ra rb => [rd.text, ra.text, rb.text]
  | .bvXor rd ra rb => [rd.text, ra.text, rb.text]
  | .bvNand rd ra rb => [rd.text, ra.text, rb.text]
  | .bvNor rd ra rb => [rd.text, ra.text, rb.text]
  | .bvXnor rd ra rb => [rd.text, ra.text, rb.text]
  | .bvDifference rd ra rb => [rd.text, ra.text, rb.text]
  | .ssNew rd n => [rd.text, toString n]
  | .ssGet rd i => [rd.text, toString i]
  | .ssSlotCount rd => [rd.text]
  | .ssClear rd => [rd.text]
  | .ssWr rd i x => [rd.text, toString i, toString x.toNat]
  | .cvCounterCount rd => [rd.text]
  | .cvGet rd k => [rd.text, toString k]
  | .cvIncrement rd k => [rd.text, toString k]
  | .cvDecrement rd k => [rd.text, toString k]
  | .cvClear rd => [rd.text]

/-- `mnemonic operand, operand, ...` (R63). -/
def Instr.text (i : Instr) : String :=
  match i.operands with
  | [] => i.mnemonic
  | os => i.mnemonic ++ " " ++ ", ".intercalate os

/-- The pseudo-commands of R64. -/
inductive Pseudo where
  /-- `bv.not vd, va` -/
  | bvNot (vd va : BvSel)
  /-- `bv.copy vd, va` -/
  | bvCopy (vd va : BvSel)
  /-- `bv.zeros_like vd, va` -/
  | bvZerosLike (vd va : BvSel)
  /-- `bv.ones_like vd, va` -/
  | bvOnesLike (vd va : BvSel)
  deriving DecidableEq, Repr

/-- The real command a pseudo-command stands for (R64). -/
def Pseudo.expand : Pseudo → Instr
  | .bvNot vd va => .bvNand vd va va
  | .bvCopy vd va => .bvOr vd va va
  | .bvZerosLike vd va => .bvXor vd va va
  | .bvOnesLike vd va => .bvXnor vd va va

end Sys2Proof
end

