-- ==== Sys2Proof/Safety.lean ====
section
/-! DEFINITION. The words claims are stated with: the invariant, the frames, how a command ends, the value of a bit
and of a counter in plain arithmetic, control words written from their fields, and sequences of commands. -/

namespace Sys2Proof.Machine

/-- The invariant: the parameters are ones a build may have (R4), and every holder is within its capacity (R10).
That a counter is in 0..15 needs no clause: it is a 4-bit field (R15). -/
def State.Inv (s : State) : Prop := s.params.Legal ∧ s.mem.wf s.params = true

/-- A safe outcome: a next state in which the invariant holds. -/
def SafeOutcome (o : Host.Outcome State Fault Refusal) : Prop := ∃ t, o = .next t ∧ t.Inv

/-- The parameters, the host's further inputs and the responses already taken are as before: no command touches
them. -/
def SameHost (s t : State) : Prop := t.params = s.params ∧ t.inputs = s.inputs ∧ t.taken = s.taken

/-- No holder changed: no length and no word (R37). -/
def SameHolders (s t : State) : Prop := t.mem = s.mem

/-- Every holder other than `BV[rd]` is as before, length and words (R16). -/
def OnlyBv (rd : BvSel) (s t : State) : Prop :=
  (∀ v, v ≠ rd → t.mem.bv v = s.mem.bv v) ∧ (∀ c, t.mem.cv c = s.mem.cv c)

/-- Every holder other than `CV[rd]` is as before, length and slots (R16). -/
def OnlyCv (rd : CvSel) (s t : State) : Prop :=
  (∀ v, t.mem.bv v = s.mem.bv v) ∧ (∀ c, c ≠ rd → t.mem.cv c = s.mem.cv c)

/-! ### How a command ends (R7) -/

/-- The command succeeds with data d and leaves the state t; parameters, inputs and taken responses are kept. -/
def Completes (i : Instr) (s : State) (d : Word) (t : State) : Prop :=
  exec i s = .next t ∧ t.rsp = some (.ok d) ∧ SameHost s t

/-- The command fails with error e: the state is as before but for the response (R7, R170). -/
def Fails (i : Instr) (s : State) (e : Error) : Prop :=
  exec i s = .next { s with rsp := some (.error e) }

/-! ### Bits and counters, in arithmetic on naturals (R31, R32, R125) -/

/-- The value of bit k of a bit vector: bit `k mod 64` of word `k / 64`, bit b having weight 2^b. -/
def bitVal (ws : List Word) (k : Nat) : Bool := (memRead ws (k / 64)).toNat.testBit (k % 64)

/-- The value of counter k of a counting vector: hex digit `k mod 16` of slot `k / 16`, digit 0 the leftmost. -/
def ctrVal (ws : List Word) (k : Nat) : Nat := (memRead ws (k / 16)).toNat / 16 ^ (15 - k % 16) % 16

/-! ### Control words written from their fields (R52, R53) -/

/-- The number a BV selector field holds. -/
def bvNum : BvSel → Nat
  | .v0 => 0
  | .v1 => 1
  | .v2 => 2
  | .v3 => 3

/-- The number a CV selector field holds. -/
def cvNum : CvSel → Nat
  | .c0 => 0
  | .c1 => 1

/-- The control word with opcode, `rd` and `imm`, every other field 0. -/
def cwImm (op rd imm : Nat) : Word := BitVec.ofNat 64 (op * 2 ^ 56 + rd * 2 ^ 52 + imm)

/-- The control word with opcode, `rd`, `fn` and `imm`, every other field 0. -/
def cwFn (op rd fn imm : Nat) : Word := BitVec.ofNat 64 (op * 2 ^ 56 + rd * 2 ^ 52 + fn * 2 ^ 40 + imm)

/-- The control word with opcode and three selectors, every other field 0. -/
def cwSel (op rd ra rb : Nat) : Word :=
  BitVec.ofNat 64 (op * 2 ^ 56 + rd * 2 ^ 52 + ra * 2 ^ 48 + rb * 2 ^ 44)

/-! ### The rule the boolean commands share (R90) -/

/-- R90 for one boolean command: its opcode, its word function f, the result when the source lengths agree, and
LengthMismatch when they differ; the destination's old length plays no part. -/
def BooleanRule (mk : BvSel → BvSel → BvSel → Instr) (op : Nat) (f : Word → Word → Word) : Prop :=
  ∀ (s : State) (rd ra rb : BvSel),
    (∀ wd, decode ⟨cwSel op (bvNum rd) (bvNum ra) (bvNum rb), wd⟩ = .legal (mk rd ra rb)) ∧
    ((s.mem.bv ra).length = (s.mem.bv rb).length → ∃ t, Completes (mk rd ra rb) s 0 t ∧ OnlyBv rd s t ∧
      (t.mem.bv rd).length = (s.mem.bv ra).length ∧
      ∀ i, i < (s.mem.bv ra).length →
        memRead (t.mem.bv rd) i = f (memRead (s.mem.bv ra) i) (memRead (s.mem.bv rb) i)) ∧
    ((s.mem.bv ra).length ≠ (s.mem.bv rb).length → Fails (mk rd ra rb) s .lengthMismatch)

/-! ### Sequences of commands (R40) -/

/-- Commands executed one after another: the state after, and the response each gave, in order. -/
def execSeq : List Instr → State → Option (State × List (Option Response))
  | [], s => some (s, [])
  | i :: is, s =>
    match exec i s with
    | .next t => (execSeq is t).map (fun (u, rs) => (u, t.rsp :: rs))
    | .fault _ => none
    | .refused _ => none

/-- The commands that put a bit vector back from its words (R150). -/
def restoreBv (v : BvSel) (ws : List Word) : List Instr :=
  .bvNew v ws.length :: (List.range ws.length).map (fun i => .bvWrw v i (memRead ws i))

/-- The commands that put a counting vector back from its slots (R150). -/
def restoreCv (c : CvSel) (ws : List Word) : List Instr :=
  .ssNew c ws.length :: (List.range ws.length).map (fun i => .ssWr c i (memRead ws i))

/-! ### The one check of each command (R167) -/

/-- The error a command's own check raises in a state, if any (R167's table). -/
def checkError (i : Instr) (s : State) : Option Error :=
  let index (k limit : Nat) : Option Error := if k < limit then none else some .indexOutOfRange
  let capacity (n limit : Nat) : Option Error := if n ≤ limit then none else some .capacityExceeded
  let lengths (ra rb : BvSel) : Option Error :=
    if (s.mem.bv ra).length = (s.mem.bv rb).length then none else some .lengthMismatch
  match i with
  | .nop => none
  | .bvNew _ n => capacity n s.params.maxW
  | .bvFromElem _ n _ => capacity n s.params.maxW
  | .bvSet rd k => index k ((s.mem.bv rd).length * 64)
  | .bvGet rd k => index k ((s.mem.bv rd).length * 64)
  | .bvClear _ => none
  | .bvIsEmpty _ => none
  | .bvLen _ => none
  | .bvRdw rd k => index k (s.mem.bv rd).length
  | .bvWrw rd k _ => index k (s.mem.bv rd).length
  | .bvOr _ ra rb => lengths ra rb
  | .bvAnd _ ra rb => lengths ra rb
  | .bvXor _ ra rb => lengths ra rb
  | .bvNand _ ra rb => lengths ra rb
  | .bvNor _ ra rb => lengths ra rb
  | .bvXnor _ ra rb => lengths ra rb
  | .bvDifference _ ra rb => lengths ra rb
  | .ssNew _ n => capacity n s.params.maxS
  | .ssGet rd k => index k (s.mem.cv rd).length
  | .ssSlotCount _ => none
  | .ssClear _ => none
  | .ssWr rd k _ => index k (s.mem.cv rd).length
  | .cvCounterCount _ => none
  | .cvGet rd k => index k ((s.mem.cv rd).length * 16)
  | .cvIncrement rd k => index k ((s.mem.cv rd).length * 16)
  | .cvDecrement rd k => index k ((s.mem.cv rd).length * 16)
  | .cvClear _ => none

/-! ### Kinds of command -/

/-- The commands that read and never write a holder (R37). -/
def readsOnly : Instr → Bool
  | .nop | .bvGet _ _ | .bvIsEmpty _ | .bvLen _ | .bvRdw _ _ | .ssGet _ _ | .ssSlotCount _ | .cvCounterCount _
  | .cvGet _ _ => true
  | .bvNew _ _ | .bvFromElem _ _ _ | .bvSet _ _ | .bvClear _ | .bvWrw _ _ _ | .bvOr _ _ _ | .bvAnd _ _ _
  | .bvXor _ _ _ | .bvNand _ _ _ | .bvNor _ _ _ | .bvXnor _ _ _ | .bvDifference _ _ _ | .ssNew _ _ | .ssClear _
  | .ssWr _ _ _ | .cvIncrement _ _ | .cvDecrement _ _ | .cvClear _ => false

/-- The writes that leave the same state when done twice in a row as when done once (R37). -/
def idempotentWrite : Instr → Bool
  | .bvSet _ _ | .bvClear _ | .ssClear _ | .cvClear _ | .bvWrw _ _ _ | .ssWr _ _ _ | .bvNew _ _
  | .bvFromElem _ _ _ | .ssNew _ _ => true
  | .nop | .bvGet _ _ | .bvIsEmpty _ | .bvLen _ | .bvRdw _ _ | .bvOr _ _ _ | .bvAnd _ _ _ | .bvXor _ _ _
  | .bvNand _ _ _ | .bvNor _ _ _ | .bvXnor _ _ _ | .bvDifference _ _ _ | .ssGet _ _ | .ssSlotCount _
  | .cvCounterCount _ | .cvGet _ _ | .cvIncrement _ _ | .cvDecrement _ _ => false

/-- The bit-vector holder a command replaces as a whole, if it constructs one (R12). -/
def constructsBv : Instr → Option BvSel
  | .bvNew rd _ => some rd
  | .bvFromElem rd _ _ => some rd
  | .bvOr rd _ _ => some rd
  | .bvAnd rd _ _ => some rd
  | .bvXor rd _ _ => some rd
  | .bvNand rd _ _ => some rd
  | .bvNor rd _ _ => some rd
  | .bvXnor rd _ _ => some rd
  | .bvDifference rd _ _ => some rd
  | .nop | .bvSet _ _ | .bvGet _ _ | .bvClear _ | .bvIsEmpty _ | .bvLen _ | .bvRdw _ _ | .bvWrw _ _ _ | .ssNew _ _
  | .ssGet _ _ | .ssSlotCount _ | .ssClear _ | .ssWr _ _ _ | .cvCounterCount _ | .cvGet _ _ | .cvIncrement _ _
  | .cvDecrement _ _ | .cvClear _ => none

/-- The counting-vector holder a command replaces as a whole, if it constructs one (R12). -/
def constructsCv : Instr → Option CvSel
  | .ssNew rd _ => some rd
  | .nop | .bvNew _ _ | .bvFromElem _ _ _ | .bvSet _ _ | .bvGet _ _ | .bvClear _ | .bvIsEmpty _ | .bvLen _
  | .bvRdw _ _ | .bvWrw _ _ _ | .bvOr _ _ _ | .bvAnd _ _ _ | .bvXor _ _ _ | .bvNand _ _ _ | .bvNor _ _ _
  | .bvXnor _ _ _ | .bvDifference _ _ _ | .ssGet _ _ | .ssSlotCount _ | .ssClear _ | .ssWr _ _ _
  | .cvCounterCount _ | .cvGet _ _ | .cvIncrement _ _ | .cvDecrement _ _ | .cvClear _ => none

/-- The holder a command names in `rd`, if any (R57): a bit-vector holder or a counting-vector holder. -/
def target : Instr → Option (BvSel ⊕ CvSel)
  | .nop => none
  | .bvNew rd _ => some (.inl rd)
  | .bvFromElem rd _ _ => some (.inl rd)
  | .bvSet rd _ => some (.inl rd)
  | .bvGet rd _ => some (.inl rd)
  | .bvClear rd => some (.inl rd)
  | .bvIsEmpty rd => some (.inl rd)
  | .bvLen rd => some (.inl rd)
  | .bvRdw rd _ => some (.inl rd)
  | .bvWrw rd _ _ => some (.inl rd)
  | .bvOr rd _ _ => some (.inl rd)
  | .bvAnd rd _ _ => some (.inl rd)
  | .bvXor rd _ _ => some (.inl rd)
  | .bvNand rd _ _ => some (.inl rd)
  | .bvNor rd _ _ => some (.inl rd)
  | .bvXnor rd _ _ => some (.inl rd)
  | .bvDifference rd _ _ => some (.inl rd)
  | .ssNew rd _ => some (.inr rd)
  | .ssGet rd _ => some (.inr rd)
  | .ssSlotCount rd => some (.inr rd)
  | .ssClear rd => some (.inr rd)
  | .ssWr rd _ _ => some (.inr rd)
  | .cvCounterCount rd => some (.inr rd)
  | .cvGet rd _ => some (.inr rd)
  | .cvIncrement rd _ => some (.inr rd)
  | .cvDecrement rd _ => some (.inr rd)
  | .cvClear rd => some (.inr rd)

end Sys2Proof.Machine
end

