-- ==== Sys2Proof/Certificates/Slice0/Obligations.lean ====
section
/-! DEFINITION. The statements for the provers. Each docstring names the rule of the spec it formalises. -/

open Sys2Proof Sys2Proof.Machine

/-! ### Bit vector: construct, set, get, clear, is_empty (spec/40_bit_vector.md) -/

/-- R70: `bv.new` decodes from opcode 0x10, constructs n zero words, fails with CapacityExceeded above MAXW, and is
`bv.from_elem` with bit 0. -/
def Obligations.BvNewConstructsZeroWords : Prop :=
  ∀ (s : State) (rd : BvSel) (n : Nat),
    (∀ wd, n < 2 ^ 32 → decode ⟨cwImm 0x10 (bvNum rd) n, wd⟩ = .legal (.bvNew rd n)) ∧
    (n ≤ s.params.maxW → ∃ t, Completes (.bvNew rd n) s 0 t ∧ OnlyBv rd s t ∧ (t.mem.bv rd).length = n ∧
      (∀ i, i < n → memRead (t.mem.bv rd) i = 0) ∧ (∀ k, k < n * 64 → bitVal (t.mem.bv rd) k = false)) ∧
    (s.params.maxW < n → Fails (.bvNew rd n) s .capacityExceeded) ∧
    exec (.bvNew rd n) s = exec (.bvFromElem rd n false) s

/-- R71: `bv.from_elem` decodes from opcode 0x11 with the bit in `fn[0]`, and constructs n words with every bit equal
to `bit`; it fails with CapacityExceeded above MAXW. -/
def Obligations.BvFromElemFillsEveryBit : Prop :=
  ∀ (s : State) (rd : BvSel) (n : Nat) (bit : Bool),
    (∀ wd, n < 2 ^ 32 → decode ⟨cwFn 0x11 (bvNum rd) bit.toNat n, wd⟩ = .legal (.bvFromElem rd n bit)) ∧
    (n ≤ s.params.maxW → ∃ t, Completes (.bvFromElem rd n bit) s 0 t ∧ OnlyBv rd s t ∧
      (t.mem.bv rd).length = n ∧
      (∀ i, i < n → memRead (t.mem.bv rd) i = if bit then 0xFFFFFFFFFFFFFFFF#64 else 0#64) ∧
      (∀ k, k < n * 64 → bitVal (t.mem.bv rd) k = bit)) ∧
    (s.params.maxW < n → Fails (.bvFromElem rd n bit) s .capacityExceeded)

/-- R72: `bv.set` decodes from opcode 0x12, makes bit k 1 and changes no other bit, no length and no other holder;
with k at or above total_bits it fails with IndexOutOfRange. -/
def Obligations.BvSetSetsExactlyOneBit : Prop :=
  ∀ (s : State) (rd : BvSel) (k : Nat),
    (∀ wd, k < 2 ^ 32 → decode ⟨cwImm 0x12 (bvNum rd) k, wd⟩ = .legal (.bvSet rd k)) ∧
    (k < (s.mem.bv rd).length * 64 → ∃ t, Completes (.bvSet rd k) s 0 t ∧ OnlyBv rd s t ∧
      (t.mem.bv rd).length = (s.mem.bv rd).length ∧
      memRead (t.mem.bv rd) (k / 64) = memRead (s.mem.bv rd) (k / 64) ||| (1#64 <<< (k % 64)) ∧
      (∀ i, i ≠ k / 64 → memRead (t.mem.bv rd) i = memRead (s.mem.bv rd) i) ∧
      (∀ j, bitVal (t.mem.bv rd) j = (decide (j = k) || bitVal (s.mem.bv rd) j))) ∧
    ((s.mem.bv rd).length * 64 ≤ k → Fails (.bvSet rd k) s .indexOutOfRange)

/-- R73: `bv.get` decodes from opcode 0x13, answers 1 if bit k is 1 and 0 otherwise, and changes no holder; with k at
or above total_bits it fails with IndexOutOfRange. -/
def Obligations.BvGetAnswersTheBit : Prop :=
  ∀ (s : State) (rd : BvSel) (k : Nat),
    (∀ wd, k < 2 ^ 32 → decode ⟨cwImm 0x13 (bvNum rd) k, wd⟩ = .legal (.bvGet rd k)) ∧
    (k < (s.mem.bv rd).length * 64 → ∃ t,
      Completes (.bvGet rd k) s (if bitVal (s.mem.bv rd) k then 1 else 0) t ∧ SameHolders s t) ∧
    ((s.mem.bv rd).length * 64 ≤ k → Fails (.bvGet rd k) s .indexOutOfRange)

/-- R74: `bv.clear` decodes from opcode 0x14, always succeeds, zeroes every word below the length and keeps the
length. -/
def Obligations.BvClearZeroesEveryWord : Prop :=
  ∀ (s : State) (rd : BvSel),
    (∀ wd, decode ⟨cwImm 0x14 (bvNum rd) 0, wd⟩ = .legal (.bvClear rd)) ∧
    (∃ t, Completes (.bvClear rd) s 0 t ∧ OnlyBv rd s t ∧ (t.mem.bv rd).length = (s.mem.bv rd).length ∧
      (∀ i, i < (s.mem.bv rd).length → memRead (t.mem.bv rd) i = 0) ∧
      (∀ k, k < (s.mem.bv rd).length * 64 → bitVal (t.mem.bv rd) k = false)) ∧
    ((s.mem.bv rd).length ≤ s.params.maxW → exec (.bvClear rd) s = exec (.bvNew rd (s.mem.bv rd).length) s)

/-- R75 and R146: `bv.is_empty` (opcode 0x15) answers 1 iff the length is 0, `bv.len` (opcode 0x16) answers the
length, exactly under the invariant; both change no holder. -/
def Obligations.BvLengthQueriesAnswerTheLength : Prop :=
  ∀ (s : State) (rd : BvSel),
    (∀ wd, decode ⟨cwImm 0x15 (bvNum rd) 0, wd⟩ = .legal (.bvIsEmpty rd)) ∧
    (∀ wd, decode ⟨cwImm 0x16 (bvNum rd) 0, wd⟩ = .legal (.bvLen rd)) ∧
    (∃ t, Completes (.bvIsEmpty rd) s (if s.mem.bv rd = [] then 1 else 0) t ∧ SameHolders s t) ∧
    (∃ t d, Completes (.bvLen rd) s d t ∧ SameHolders s t ∧ d = BitVec.ofNat 64 (s.mem.bv rd).length ∧
      (s.Inv → d.toNat = (s.mem.bv rd).length))

/-- R76: for every holder of w words and k, j below w x 64: after `bv.set v, k`, `bv.get v, k` answers 1; the answer
for j != k and every other holder, bit vector or counting vector, stay; no 1 becomes 0; after `bv.new v, w` every `bv.get` answers 0 and
after `bv.from_elem v, w, 1` every `bv.get` answers 1. -/
def Obligations.BvSetThenGetLaws : Prop :=
  ∀ (s : State) (v : BvSel) (k j : Nat), k < (s.mem.bv v).length * 64 → j < (s.mem.bv v).length * 64 →
    (∃ t, exec (.bvSet v k) s = .next t ∧
      (∃ u, exec (.bvGet v k) t = .next u ∧ u.rsp = some (.ok 1)) ∧
      (j ≠ k → ∃ u u', exec (.bvGet v j) t = .next u ∧ exec (.bvGet v j) s = .next u' ∧ u.rsp = u'.rsp) ∧
      OnlyBv v s t ∧
      (bitVal (s.mem.bv v) j = true → bitVal (t.mem.bv v) j = true)) ∧
    ((s.mem.bv v).length ≤ s.params.maxW →
      (∃ t, exec (.bvNew v (s.mem.bv v).length) s = .next t ∧
        ∃ u, exec (.bvGet v j) t = .next u ∧ u.rsp = some (.ok 0)) ∧
      (∃ t, exec (.bvFromElem v (s.mem.bv v).length true) s = .next t ∧
        ∃ u, exec (.bvGet v j) t = .next u ∧ u.rsp = some (.ok 1)))

/-! ### Boolean algebra (spec/41_bit_vector_boolean.md) -/

/-- R90 with R92, R93, R94: or, and, xor. -/
def Obligations.OrAndXorCombineWordwise : Prop :=
  BooleanRule .bvOr 0x20 (fun a b => a ||| b) ∧ BooleanRule .bvAnd 0x21 (fun a b => a &&& b) ∧
  BooleanRule .bvXor 0x22 (fun a b => a ^^^ b)

/-- R90 with R95, R96, R97: nand, nor, xnor, complemented over all 64 bits. -/
def Obligations.NandNorXnorCombineWordwise : Prop :=
  BooleanRule .bvNand 0x23 (fun a b => ~~~(a &&& b)) ∧ BooleanRule .bvNor 0x24 (fun a b => ~~~(a ||| b)) ∧
  BooleanRule .bvXnor 0x25 (fun a b => ~~~(a ^^^ b))

/-- R90 with R98: difference is self AND NOT other. -/
def Obligations.DifferenceRemovesMemberships : Prop :=
  BooleanRule .bvDifference 0x26 (fun a b => a &&& ~~~b)

/-- R91 (part): with equal sources the results are x, x, ZERO, ~x, ~x, ONES, ZERO in the order or, and, xor, nand,
nor, xnor, difference, whatever the destination; and `bv.difference` into its second source gives
`BV[ra] AND NOT BV[rb]` from the old words. -/
def Obligations.EqualSelectorsReadTheOldWords : Prop :=
  ∀ (s : State) (rd ra : BvSel) (i : Nat), i < (s.mem.bv ra).length →
    (∃ t, exec (.bvOr rd ra ra) s = .next t ∧ memRead (t.mem.bv rd) i = memRead (s.mem.bv ra) i) ∧
    (∃ t, exec (.bvAnd rd ra ra) s = .next t ∧ memRead (t.mem.bv rd) i = memRead (s.mem.bv ra) i) ∧
    (∃ t, exec (.bvXor rd ra ra) s = .next t ∧ memRead (t.mem.bv rd) i = 0) ∧
    (∃ t, exec (.bvNand rd ra ra) s = .next t ∧ memRead (t.mem.bv rd) i = ~~~(memRead (s.mem.bv ra) i)) ∧
    (∃ t, exec (.bvNor rd ra ra) s = .next t ∧ memRead (t.mem.bv rd) i = ~~~(memRead (s.mem.bv ra) i)) ∧
    (∃ t, exec (.bvXnor rd ra ra) s = .next t ∧ memRead (t.mem.bv rd) i = 0xFFFFFFFFFFFFFFFF#64) ∧
    (∃ t, exec (.bvDifference rd ra ra) s = .next t ∧ memRead (t.mem.bv rd) i = 0) ∧
    (∀ rb, (s.mem.bv rb).length = (s.mem.bv ra).length → ∃ t, exec (.bvDifference rb ra rb) s = .next t ∧
      memRead (t.mem.bv rb) i = memRead (s.mem.bv ra) i &&& ~~~(memRead (s.mem.bv rb) i))

/-- R99: for sources of equal length, (a) xnor, nand and nor leave the complement of xor, and, or; (b) difference is
and with the complement of the second source, made in a scratch holder other than the first source; (c) the first six
are symmetric in their sources and difference is not; (d) the answer at every valid bit is the boolean function of
the sources' bits. -/
def Obligations.BooleanIdentitiesHold : Prop :=
  (∀ (s : State) (rd ra rb : BvSel), (s.mem.bv ra).length = (s.mem.bv rb).length →
    (∀ p ∈ [(Instr.bvXnor rd ra rb, Instr.bvXor rd ra rb), (Instr.bvNand rd ra rb, Instr.bvAnd rd ra rb),
        (Instr.bvNor rd ra rb, Instr.bvOr rd ra rb)],
      ∃ t u, exec p.1 s = .next t ∧ (execSeq [p.2, .bvNand rd rd rd] s).map Prod.fst = some u ∧
        t.mem.bv rd = u.mem.bv rd) ∧
    (∀ scratch, scratch ≠ ra → ∃ t u, exec (.bvDifference rd ra rb) s = .next t ∧
      (execSeq [.bvNand scratch rb rb, .bvAnd rd ra scratch] s).map Prod.fst = some u ∧
      t.mem.bv rd = u.mem.bv rd) ∧
    (∀ k, k < (s.mem.bv ra).length * 64 →
      ∀ p ∈ [(Instr.bvOr rd ra rb, bitVal (s.mem.bv ra) k || bitVal (s.mem.bv rb) k),
          (Instr.bvAnd rd ra rb, bitVal (s.mem.bv ra) k && bitVal (s.mem.bv rb) k),
          (Instr.bvXor rd ra rb, bitVal (s.mem.bv ra) k ^^ bitVal (s.mem.bv rb) k),
          (Instr.bvNor rd ra rb, !(bitVal (s.mem.bv ra) k || bitVal (s.mem.bv rb) k)),
          (Instr.bvNand rd ra rb, !(bitVal (s.mem.bv ra) k && bitVal (s.mem.bv rb) k)),
          (Instr.bvXnor rd ra rb, !(bitVal (s.mem.bv ra) k ^^ bitVal (s.mem.bv rb) k)),
          (Instr.bvDifference rd ra rb, bitVal (s.mem.bv ra) k && !bitVal (s.mem.bv rb) k)],
        ∃ t u, exec p.1 s = .next t ∧ exec (.bvGet rd k) t = .next u ∧
          u.rsp = some (.ok (if p.2 then 1 else 0)))) ∧
  (∀ (s : State) (rd ra rb : BvSel),
    exec (.bvOr rd ra rb) s = exec (.bvOr rd rb ra) s ∧ exec (.bvAnd rd ra rb) s = exec (.bvAnd rd rb ra) s ∧
    exec (.bvXor rd ra rb) s = exec (.bvXor rd rb ra) s ∧ exec (.bvNand rd ra rb) s = exec (.bvNand rd rb ra) s ∧
    exec (.bvNor rd ra rb) s = exec (.bvNor rd rb ra) s ∧ exec (.bvXnor rd ra rb) s = exec (.bvXnor rd rb ra) s) ∧
  (∃ (s : State) (rd ra rb : BvSel), (s.mem.bv ra).length = (s.mem.bv rb).length ∧
    exec (.bvDifference rd ra rb) s ≠ exec (.bvDifference rd rb ra) s)

/-- R64: each pseudo-command is one real command; it never fails with LengthMismatch, the destination gets the length
of the source, and its words are the complement, a copy, ZERO, ONES. -/
def Obligations.PseudoCommandsMeanTheirTable : Prop :=
  ∀ (s : State) (vd va : BvSel),
    Pseudo.expand (.bvNot vd va) = .bvNand vd va va ∧ Pseudo.expand (.bvCopy vd va) = .bvOr vd va va ∧
    Pseudo.expand (.bvZerosLike vd va) = .bvXor vd va va ∧ Pseudo.expand (.bvOnesLike vd va) = .bvXnor vd va va ∧
    (∃ t, Completes (Pseudo.expand (.bvNot vd va)) s 0 t ∧ OnlyBv vd s t ∧
      t.mem.bv vd = (s.mem.bv va).map (fun x => ~~~x)) ∧
    (∃ t, Completes (Pseudo.expand (.bvCopy vd va)) s 0 t ∧ OnlyBv vd s t ∧ t.mem.bv vd = s.mem.bv va) ∧
    (∃ t, Completes (Pseudo.expand (.bvZerosLike vd va)) s 0 t ∧ OnlyBv vd s t ∧
      t.mem.bv vd = (s.mem.bv va).map (fun _ => 0#64)) ∧
    (∃ t, Completes (Pseudo.expand (.bvOnesLike vd va)) s 0 t ∧ OnlyBv vd s t ∧
      t.mem.bv vd = (s.mem.bv va).map (fun _ => 0xFFFFFFFFFFFFFFFF#64))

/-! ### Slot storage (spec/42_slot_storage.md) -/

/-- R110: `ss.new` decodes from opcode 0x30 with policy 0 only, constructs n zero slots, and fails with
CapacityExceeded above MAXS. -/
def Obligations.SsNewConstructsZeroSlots : Prop :=
  ∀ (s : State) (rd : CvSel) (n : Nat),
    (∀ wd, n < 2 ^ 32 → decode ⟨cwImm 0x30 (cvNum rd) n, wd⟩ = .legal (.ssNew rd n)) ∧
    (∀ policy wd, 1 ≤ policy → policy < 16 → n < 2 ^ 32 →
      (decode ⟨cwFn 0x30 (cvNum rd) policy n, wd⟩).instr? = none) ∧
    (n ≤ s.params.maxS → ∃ t, Completes (.ssNew rd n) s 0 t ∧ OnlyCv rd s t ∧ (t.mem.cv rd).length = n ∧
      (∀ i, i < n → memRead (t.mem.cv rd) i = 0) ∧ (∀ k, k < n * 16 → ctrVal (t.mem.cv rd) k = 0)) ∧
    (s.params.maxS < n → Fails (.ssNew rd n) s .capacityExceeded)

/-- R111: `ss.get` decodes from opcode 0x31, answers the slot word and changes no holder; with s at or above the slot
count it fails with IndexOutOfRange. -/
def Obligations.SsGetAnswersTheSlot : Prop :=
  ∀ (s : State) (rd : CvSel) (i : Nat),
    (∀ wd, i < 2 ^ 32 → decode ⟨cwImm 0x31 (cvNum rd) i, wd⟩ = .legal (.ssGet rd i)) ∧
    (i < (s.mem.cv rd).length → ∃ t, Completes (.ssGet rd i) s (memRead (s.mem.cv rd) i) t ∧ SameHolders s t) ∧
    ((s.mem.cv rd).length ≤ i → Fails (.ssGet rd i) s .indexOutOfRange)

/-- R112 and R126: `ss.slot_count` (opcode 0x32) answers the slot count and `cv.counter_count` (opcode 0x40) sixteen
times it, both exactly under the invariant; neither changes a holder, and no command but `ss.new` changes the count. -/
def Obligations.CountQueriesAnswerTheCounts : Prop :=
  ∀ (s : State) (rd : CvSel),
    (∀ wd, decode ⟨cwImm 0x32 (cvNum rd) 0, wd⟩ = .legal (.ssSlotCount rd)) ∧
    (∀ wd, decode ⟨cwImm 0x40 (cvNum rd) 0, wd⟩ = .legal (.cvCounterCount rd)) ∧
    (∃ t d, Completes (.ssSlotCount rd) s d t ∧ SameHolders s t ∧ d = BitVec.ofNat 64 (s.mem.cv rd).length ∧
      (s.Inv → d.toNat = (s.mem.cv rd).length)) ∧
    (∃ t d, Completes (.cvCounterCount rd) s d t ∧ SameHolders s t ∧
      d = BitVec.ofNat 64 ((s.mem.cv rd).length * 16) ∧ (s.Inv → d.toNat = (s.mem.cv rd).length * 16)) ∧
    (∀ i t, exec i s = .next t → (t.mem.cv rd).length ≠ (s.mem.cv rd).length → ∃ n, i = .ssNew rd n)

/-- R114 and R132: `ss.clear` (opcode 0x33) and `cv.clear` (opcode 0x44) are one operation: always a success, every
slot and so every counter 0, the slot count kept. -/
def Obligations.ClearsZeroEveryCounter : Prop :=
  ∀ (s : State) (rd : CvSel),
    (∀ wd, decode ⟨cwImm 0x33 (cvNum rd) 0, wd⟩ = .legal (.ssClear rd)) ∧
    (∀ wd, decode ⟨cwImm 0x44 (cvNum rd) 0, wd⟩ = .legal (.cvClear rd)) ∧
    exec (.cvClear rd) s = exec (.ssClear rd) s ∧
    (∀ i ∈ [Instr.ssClear rd, Instr.cvClear rd], ∃ t, Completes i s 0 t ∧ OnlyCv rd s t ∧
      (t.mem.cv rd).length = (s.mem.cv rd).length ∧
      (∀ a, a < (s.mem.cv rd).length → memRead (t.mem.cv rd) a = 0) ∧
      (∀ k, k < (s.mem.cv rd).length * 16 → ctrVal (t.mem.cv rd) k = 0))

/-! ### Counting vector (spec/43_counting_vector.md) -/

/-- R127: `cv.get` decodes from opcode 0x41, answers counter k, a value in 0..15, and changes no holder; with k at or
above counter_count it fails with IndexOutOfRange. -/
def Obligations.CvGetAnswersTheCounter : Prop :=
  ∀ (s : State) (rd : CvSel) (k : Nat),
    (∀ wd, k < 2 ^ 32 → decode ⟨cwImm 0x41 (cvNum rd) k, wd⟩ = .legal (.cvGet rd k)) ∧
    (k < (s.mem.cv rd).length * 16 → ∃ t d, Completes (.cvGet rd k) s d t ∧ SameHolders s t ∧
      d.toNat = ctrVal (s.mem.cv rd) k ∧ d.toNat ≤ 15) ∧
    ((s.mem.cv rd).length * 16 ≤ k → Fails (.cvGet rd k) s .indexOutOfRange)

/-- R128: `cv.increment` decodes from opcode 0x42. Below 15 it adds 1 to counter k and answers 1, the slot becoming
`x + (1 << sh)`; at 15 it changes nothing and answers 0. Every other counter, slot and holder is unchanged. With k at
or above counter_count it fails with IndexOutOfRange. -/
def Obligations.CvIncrementSaturatesAtFifteen : Prop :=
  ∀ (s : State) (rd : CvSel) (k : Nat),
    (∀ wd, k < 2 ^ 32 → decode ⟨cwImm 0x42 (cvNum rd) k, wd⟩ = .legal (.cvIncrement rd k)) ∧
    (k < (s.mem.cv rd).length * 16 → ctrVal (s.mem.cv rd) k < 15 →
      ∃ t, Completes (.cvIncrement rd k) s 1 t ∧ OnlyCv rd s t ∧ (t.mem.cv rd).length = (s.mem.cv rd).length ∧
        ctrVal (t.mem.cv rd) k = ctrVal (s.mem.cv rd) k + 1 ∧
        (∀ j, j ≠ k → ctrVal (t.mem.cv rd) j = ctrVal (s.mem.cv rd) j) ∧
        (∀ i, i ≠ k / 16 → memRead (t.mem.cv rd) i = memRead (s.mem.cv rd) i) ∧
        memRead (t.mem.cv rd) (k / 16) = memRead (s.mem.cv rd) (k / 16) + (1#64 <<< ((15 - k % 16) * 4))) ∧
    (k < (s.mem.cv rd).length * 16 → ctrVal (s.mem.cv rd) k = 15 →
      ∃ t, Completes (.cvIncrement rd k) s 0 t ∧ SameHolders s t) ∧
    ((s.mem.cv rd).length * 16 ≤ k → Fails (.cvIncrement rd k) s .indexOutOfRange)

/-- R130: `cv.decrement` decodes from opcode 0x43. Above 0 it subtracts 1 from counter k and answers 1, the slot
becoming `x - (1 << sh)`; at 0 it changes nothing and answers 0. Every other counter, slot and holder is unchanged.
With k at or above counter_count it fails with IndexOutOfRange. -/
def Obligations.CvDecrementFloorsAtZero : Prop :=
  ∀ (s : State) (rd : CvSel) (k : Nat),
    (∀ wd, k < 2 ^ 32 → decode ⟨cwImm 0x43 (cvNum rd) k, wd⟩ = .legal (.cvDecrement rd k)) ∧
    (k < (s.mem.cv rd).length * 16 → 0 < ctrVal (s.mem.cv rd) k →
      ∃ t, Completes (.cvDecrement rd k) s 1 t ∧ OnlyCv rd s t ∧ (t.mem.cv rd).length = (s.mem.cv rd).length ∧
        ctrVal (t.mem.cv rd) k + 1 = ctrVal (s.mem.cv rd) k ∧
        (∀ j, j ≠ k → ctrVal (t.mem.cv rd) j = ctrVal (s.mem.cv rd) j) ∧
        (∀ i, i ≠ k / 16 → memRead (t.mem.cv rd) i = memRead (s.mem.cv rd) i) ∧
        memRead (t.mem.cv rd) (k / 16) = memRead (s.mem.cv rd) (k / 16) - (1#64 <<< ((15 - k % 16) * 4))) ∧
    (k < (s.mem.cv rd).length * 16 → ctrVal (s.mem.cv rd) k = 0 →
      ∃ t, Completes (.cvDecrement rd k) s 0 t ∧ SameHolders s t) ∧
    ((s.mem.cv rd).length * 16 ≤ k → Fails (.cvDecrement rd k) s .indexOutOfRange)

/-- R129: n successive increments of one valid index from value v leave min(v + n, 15); the first min(n, 15 - v)
answer 1 and the rest answer 0. -/
def Obligations.IncrementsReachTheMinimum : Prop :=
  ∀ (s : State) (rd : CvSel) (k n : Nat), k < (s.mem.cv rd).length * 16 →
    ∃ t, execSeq (List.replicate n (.cvIncrement rd k)) s =
        some (t, List.replicate (min n (15 - ctrVal (s.mem.cv rd) k)) (some (.ok 1)) ++
          List.replicate (n - (15 - ctrVal (s.mem.cv rd) k)) (some (.ok 0))) ∧
      ctrVal (t.mem.cv rd) k = min (ctrVal (s.mem.cv rd) k + n) 15

/-- R131: n successive decrements of one valid index from value v leave max(v - n, 0); the first min(n, v) answer 1
and the rest answer 0; and an increment followed by a decrement restores the value iff it was below 15, leaving 14
from 15. -/
def Obligations.DecrementsReachTheMaximum : Prop :=
  ∀ (s : State) (rd : CvSel) (k n : Nat), k < (s.mem.cv rd).length * 16 →
    (∃ t, execSeq (List.replicate n (.cvDecrement rd k)) s =
        some (t, List.replicate (min n (ctrVal (s.mem.cv rd) k)) (some (.ok 1)) ++
          List.replicate (n - ctrVal (s.mem.cv rd) k) (some (.ok 0))) ∧
      ctrVal (t.mem.cv rd) k = ctrVal (s.mem.cv rd) k - n) ∧
    (∃ t rs, execSeq [.cvIncrement rd k, .cvDecrement rd k] s = some (t, rs) ∧
      (ctrVal (t.mem.cv rd) k = ctrVal (s.mem.cv rd) k ↔ ctrVal (s.mem.cv rd) k < 15) ∧
      (ctrVal (s.mem.cv rd) k = 15 → ctrVal (t.mem.cv rd) k = 14))

/-- R133 (part): an increment or decrement at index i never changes counter j for j != i, in the same slot or
another, in the same holder or another; in slot i / 16 it changes at most the four bits of the field mask. -/
def Obligations.CounterLanesAreIndependent : Prop :=
  ∀ (s t : State) (rd : CvSel) (i : Nat),
    (exec (.cvIncrement rd i) s = .next t ∨ exec (.cvDecrement rd i) s = .next t) →
      (∀ c j, (c ≠ rd ∨ j ≠ i) → ctrVal (t.mem.cv c) j = ctrVal (s.mem.cv c) j) ∧
      (∀ c a, (c ≠ rd ∨ a ≠ i / 16) → memRead (t.mem.cv c) a = memRead (s.mem.cv c) a) ∧
      memRead (t.mem.cv rd) (i / 16) &&& ~~~(0xF#64 <<< ((15 - i % 16) * 4)) =
        memRead (s.mem.cv rd) (i / 16) &&& ~~~(0xF#64 <<< ((15 - i % 16) * 4))

/-- R166: `cv.increment` at 15 and `cv.decrement` at 0 end with status 0 (OK) and data 0, and nothing changes. -/
def Obligations.SaturationIsNotAnError : Prop :=
  ∀ (s : State) (rd : CvSel) (k : Nat), k < (s.mem.cv rd).length * 16 →
    ∀ i ∈ [Instr.cvIncrement rd k, Instr.cvDecrement rd k],
      (i = .cvIncrement rd k → ctrVal (s.mem.cv rd) k = 15) →
      (i = .cvDecrement rd k → ctrVal (s.mem.cv rd) k = 0) →
      ∃ t, exec i s = .next t ∧ t.rspStatus = some 0 ∧ t.rspData = some 0 ∧ SameHolders s t ∧ SameHost s t

/-! ### Added commands (spec/44_host_access.md) -/

/-- R145: the only legal control word with opcode 0x00 is 0, which is `nop`; it answers OK with data 0 and changes no
holder. -/
def Obligations.NopDoesNothing : Prop :=
  (∀ wd, decode ⟨0x0000000000000000#64, wd⟩ = .legal .nop) ∧
  (∀ cw wd : Word, cw.toNat / 2 ^ 56 = 0 → cw ≠ 0 → (decode ⟨cw, wd⟩).instr? = none) ∧
  (∀ s : State, ∃ t, Completes .nop s 0 t ∧ SameHolders s t)

/-- R147: `bv.rdw` decodes from opcode 0x17, answers word i, bit b of which is the bit with index i x 64 + b, and
changes no holder; with i at or above the word count it fails with IndexOutOfRange. -/
def Obligations.BvRdwAnswersTheWord : Prop :=
  ∀ (s : State) (rd : BvSel) (i : Nat),
    (∀ wd, i < 2 ^ 32 → decode ⟨cwImm 0x17 (bvNum rd) i, wd⟩ = .legal (.bvRdw rd i)) ∧
    (i < (s.mem.bv rd).length → ∃ t d, Completes (.bvRdw rd i) s d t ∧ SameHolders s t ∧
      d = memRead (s.mem.bv rd) i ∧ ∀ b, b < 64 → d.getLsbD b = bitVal (s.mem.bv rd) (i * 64 + b)) ∧
    ((s.mem.bv rd).length ≤ i → Fails (.bvRdw rd i) s .indexOutOfRange)

/-- R148: `bv.wrw` decodes from opcode 0x18 with the write-data word as operand, makes it word i and changes no other
word, no length and no other holder; with i at or above the word count it fails with IndexOutOfRange. -/
def Obligations.BvWrwStoresTheWord : Prop :=
  ∀ (s : State) (rd : BvSel) (i : Nat) (x : Word),
    (i < 2 ^ 32 → decode ⟨cwImm 0x18 (bvNum rd) i, x⟩ = .legal (.bvWrw rd i x)) ∧
    (i < (s.mem.bv rd).length → ∃ t, Completes (.bvWrw rd i x) s 0 t ∧ OnlyBv rd s t ∧
      (t.mem.bv rd).length = (s.mem.bv rd).length ∧ memRead (t.mem.bv rd) i = x ∧
      ∀ j, j ≠ i → memRead (t.mem.bv rd) j = memRead (s.mem.bv rd) j) ∧
    ((s.mem.bv rd).length ≤ i → Fails (.bvWrw rd i x) s .indexOutOfRange)

/-- R149: `ss.wr` decodes from opcode 0x34 with the write-data word as operand, makes it slot i, counter 16 i + p
becoming hex digit p of it, and changes no other slot, no slot count and no other holder; with i at or above the slot
count it fails with IndexOutOfRange. -/
def Obligations.SsWrStoresSixteenCounters : Prop :=
  ∀ (s : State) (rd : CvSel) (i : Nat) (x : Word),
    (i < 2 ^ 32 → decode ⟨cwImm 0x34 (cvNum rd) i, x⟩ = .legal (.ssWr rd i x)) ∧
    (i < (s.mem.cv rd).length → ∃ t, Completes (.ssWr rd i x) s 0 t ∧ OnlyCv rd s t ∧
      (t.mem.cv rd).length = (s.mem.cv rd).length ∧ memRead (t.mem.cv rd) i = x ∧
      (∀ j, j ≠ i → memRead (t.mem.cv rd) j = memRead (s.mem.cv rd) j) ∧
      ∀ p, p < 16 → ctrVal (t.mem.cv rd) (16 * i + p) = (x >>> ((15 - p) * 4)).toNat % 16) ∧
    ((s.mem.cv rd).length ≤ i → Fails (.ssWr rd i x) s .indexOutOfRange)

/-- R150 (part): constructing a holder of n words and writing the n words read out of a vector gives that vector, in
any state whose capacity allows n, and touches no other holder; likewise for a counting vector. -/
def Obligations.RestoreRebuildsTheVector : Prop :=
  (∀ (s : State) (v : BvSel) (ws : List Word), ws.length ≤ s.params.maxW →
    ∃ t rs, execSeq (restoreBv v ws) s = some (t, rs) ∧ t.mem.bv v = ws ∧ OnlyBv v s t ∧
      rs = List.replicate (ws.length + 1) (some (.ok 0))) ∧
  (∀ (s : State) (c : CvSel) (ws : List Word), ws.length ≤ s.params.maxS →
    ∃ t rs, execSeq (restoreCv c ws) s = some (t, rs) ∧ t.mem.cv c = ws ∧ OnlyCv c s t ∧
      rs = List.replicate (ws.length + 1) (some (.ok 0)))

/-! ### Errors (spec/60_exceptions.md) -/

/-- R167: after a legal decode a command has at most one further check, the one of R167's table: it fails with that
error exactly when the check fails, and succeeds otherwise. -/
def Obligations.EachCommandHasItsOneCheck : Prop :=
  ∀ (i : Instr) (s : State), ∃ t, exec i s = .next t ∧
    ((∃ e, checkError i s = some e ∧ t.rsp = some (.error e)) ∨
      (checkError i s = none ∧ ∃ d, t.rsp = some (.ok d)))

/-- R162: an indexed command fails with IndexOutOfRange exactly when its index is not below the number of addressable
units of its holder: bits, counters, words or slots. -/
def Obligations.IndexOutOfRangeExactly : Prop :=
  ∀ (s : State) (v : BvSel) (c : CvSel) (k : Nat) (x : Word),
    ∀ p ∈ [(Instr.bvSet v k, (s.mem.bv v).length * 64), (Instr.bvGet v k, (s.mem.bv v).length * 64),
        (Instr.bvRdw v k, (s.mem.bv v).length), (Instr.bvWrw v k x, (s.mem.bv v).length),
        (Instr.ssGet c k, (s.mem.cv c).length), (Instr.ssWr c k x, (s.mem.cv c).length),
        (Instr.cvGet c k, (s.mem.cv c).length * 16), (Instr.cvIncrement c k, (s.mem.cv c).length * 16),
        (Instr.cvDecrement c k, (s.mem.cv c).length * 16)],
      (Fails p.1 s .indexOutOfRange ↔ ¬ k < p.2) ∧ (k < p.2 ↔ ∃ t d, Completes p.1 s d t)

/-- R165: `bv.new` and `bv.from_elem` fail with CapacityExceeded iff the count is above MAXW, `ss.new` iff it is above
MAXS, and the holder then keeps its vector. -/
def Obligations.CapacityExceededExactly : Prop :=
  ∀ (s : State) (v : BvSel) (c : CvSel) (n : Nat) (bit : Bool),
    (Fails (.bvNew v n) s .capacityExceeded ↔ s.params.maxW < n) ∧
    (Fails (.bvFromElem v n bit) s .capacityExceeded ↔ s.params.maxW < n) ∧
    (Fails (.ssNew c n) s .capacityExceeded ↔ s.params.maxS < n)

/-- R163: a boolean command fails with LengthMismatch exactly when its two source holders differ in length. -/
def Obligations.LengthMismatchExactly : Prop :=
  ∀ (s : State) (rd ra rb : BvSel),
    ∀ i ∈ [Instr.bvOr rd ra rb, Instr.bvAnd rd ra rb, Instr.bvXor rd ra rb, Instr.bvNand rd ra rb,
        Instr.bvNor rd ra rb, Instr.bvXnor rd ra rb, Instr.bvDifference rd ra rb],
      (Fails i s .lengthMismatch ↔ (s.mem.bv ra).length ≠ (s.mem.bv rb).length) ∧
      ((s.mem.bv ra).length = (s.mem.bv rb).length ↔ ∃ t, Completes i s 0 t)

/-- R164: a control word fails with IllegalCommand when it matches no row of the opcode map, whatever the write-data
word and the state: status 3, data 0, no state change; and it decodes to a command when it matches one. -/
def Obligations.IllegalCommandDependsOnCwAlone : Prop :=
  ∀ cw : Word,
    ((∀ r ∈ opcodeMap, cw &&& r.fmt.mask ≠ r.matchWord) →
      ∀ (wd : Word) (s : State), runCommand ⟨cw, wd⟩ s = .next { s with rsp := some (.error .illegalCommand) } ∧
        Response.status (.error .illegalCommand) = 3 ∧ Response.data (.error .illegalCommand) = 0) ∧
    ((∃ r ∈ opcodeMap, cw &&& r.fmt.mask = r.matchWord) →
      ∀ wd, ∃ i, decode ⟨cw, wd⟩ = .legal i ∧ ∀ s, runCommand ⟨cw, wd⟩ s = exec i s)

/-- R56: the legal control words are exactly those whose opcode is one of the 27 and whose other fields are in the
ranges of R52 and R53: unused fields 0, BV selectors below 4, CV selectors below 2, a fill code below 2, no init
policy but 0; every other one fails with IllegalCommand, status 3, data 0, and changes no state. -/
def Obligations.LegalControlWordsByTheirFields : Prop :=
  ∀ (op rd ra rb fn rsv imm : Nat) (wd : Word), op < 256 → rd < 16 → ra < 16 → rb < 16 → fn < 16 → rsv < 256 →
    imm < 2 ^ 32 →
    ∃ cw : Word, cw.toNat = op * 2 ^ 56 + rd * 2 ^ 52 + ra * 2 ^ 48 + rb * 2 ^ 44 + fn * 2 ^ 40 + rsv * 2 ^ 32 + imm ∧
    ((decode ⟨cw, wd⟩).instr? ≠ none ↔
      rsv = 0 ∧
      ((op = 0x00 ∧ rd = 0 ∧ ra = 0 ∧ rb = 0 ∧ fn = 0 ∧ imm = 0) ∨
       (op = 0x11 ∧ rd < 4 ∧ ra = 0 ∧ rb = 0 ∧ fn < 2) ∨
       (op ∈ [0x10, 0x12, 0x13, 0x17, 0x18] ∧ rd < 4 ∧ ra = 0 ∧ rb = 0 ∧ fn = 0) ∨
       (op ∈ [0x14, 0x15, 0x16] ∧ rd < 4 ∧ ra = 0 ∧ rb = 0 ∧ fn = 0 ∧ imm = 0) ∨
       (op ∈ [0x20, 0x21, 0x22, 0x23, 0x24, 0x25, 0x26] ∧ rd < 4 ∧ ra < 4 ∧ rb < 4 ∧ fn = 0 ∧ imm = 0) ∨
       (op ∈ [0x30, 0x31, 0x34, 0x41, 0x42, 0x43] ∧ rd < 2 ∧ ra = 0 ∧ rb = 0 ∧ fn = 0) ∨
       (op ∈ [0x32, 0x33, 0x40, 0x44] ∧ rd < 2 ∧ ra = 0 ∧ rb = 0 ∧ fn = 0 ∧ imm = 0))) ∧
    ((decode ⟨cw, wd⟩).instr? = none → ∀ s, ∃ t, runCommand ⟨cw, wd⟩ s = .next t ∧ t.rspStatus = some 3 ∧
      t.rspData = some 0 ∧ SameHolders s t ∧ SameHost s t)

/-- R170: a failed command, illegal control words included, changes no holder and no input, gives data 0, and the
block is ready for the next command once the response is taken. -/
def Obligations.FailedCommandChangesNothing : Prop :=
  ∀ (c : Command) (s t : State) (e : Error), runCommand c s = .next t → t.rsp = some (.error e) →
    SameHolders s t ∧ SameHost s t ∧ t.rspData = some 0 ∧ t.takeResponse.cmdReady = true ∧
      SameHolders s t.takeResponse

/-- R160 and R161: every command gives exactly one response, its status is one of 0 to 4, and the data is 0 whenever
the status is not 0. -/
def Obligations.StatusCodesAreFive : Prop :=
  ∀ (c : Command) (s t : State), runCommand c s = .next t →
    ∃ r, t.rsp = some r ∧
      ((∃ d, r = .ok d ∧ r.status = 0 ∧ r.data = d) ∨ (r = .error .indexOutOfRange ∧ r.status = 1 ∧ r.data = 0) ∨
       (r = .error .lengthMismatch ∧ r.status = 2 ∧ r.data = 0) ∨
       (r = .error .illegalCommand ∧ r.status = 3 ∧ r.data = 0) ∨
       (r = .error .capacityExceeded ∧ r.status = 4 ∧ r.data = 0))

/-! ### Whole-machine rules (spec/10_state.md, spec/20_memory.md) -/

/-- R37: the eight reads and `nop` leave every holder as it was and may be repeated with the same answer; the nine
idempotent writes leave the same holders when done twice as when done once; `bv.or v, v, w` is idempotent;
`cv.increment` and `cv.decrement` (away from saturation) and `bv.xor v, v, w` are not. -/
def Obligations.ReadsHaveNoSideEffect : Prop :=
  (∀ (i : Instr) (s t : State), readsOnly i = true → exec i s = .next t →
    SameHolders s t ∧ SameHost s t ∧ ∃ u, exec i t = .next u ∧ u.rsp = t.rsp ∧ SameHolders s u) ∧
  (∀ (i : Instr) (s t : State), idempotentWrite i = true → exec i s = .next t →
    ∃ u, exec i t = .next u ∧ SameHolders t u) ∧
  (∀ (s t : State) (v w : BvSel), exec (.bvOr v v w) s = .next t → ∃ u, exec (.bvOr v v w) t = .next u ∧ SameHolders t u) ∧
  (∀ (s : State) (rd : CvSel) (k : Nat), k < (s.mem.cv rd).length * 16 →
    (ctrVal (s.mem.cv rd) k < 14 → ∃ t u, exec (.cvIncrement rd k) s = .next t ∧ exec (.cvIncrement rd k) t = .next u ∧
      ¬ SameHolders t u) ∧
    (1 < ctrVal (s.mem.cv rd) k → ∃ t u, exec (.cvDecrement rd k) s = .next t ∧ exec (.cvDecrement rd k) t = .next u ∧
      ¬ SameHolders t u)) ∧
  (∃ (s t u : State), exec (.bvXor .v0 .v0 .v1) s = .next t ∧ exec (.bvXor .v0 .v0 .v1) t = .next u ∧ ¬ SameHolders t u)

/-- R12: a length is written only by a command that constructs the whole holder: for a bit vector `bv.new`,
`bv.from_elem` and the boolean commands' destination, for a counting vector `ss.new`. -/
def Obligations.OnlyConstructionsChangeALength : Prop :=
  ∀ (i : Instr) (s t : State), exec i s = .next t →
    (∀ v, (t.mem.bv v).length ≠ (s.mem.bv v).length → constructsBv i = some v) ∧
    (∀ c, (t.mem.cv c).length ≠ (s.mem.cv c).length → constructsCv i = some c)

/-- R16: the six holders are disjoint: a command changes no word and no length of any holder but the one its `rd`
names, and neither the parameters nor what the host does. -/
def Obligations.CommandsChangeAtMostTheirTarget : Prop :=
  ∀ (i : Instr) (s t : State), exec i s = .next t →
    SameHost s t ∧
    (∀ v, target i ≠ some (.inl v) → t.mem.bv v = s.mem.bv v) ∧
    (∀ c, target i ≠ some (.inr c) → t.mem.cv c = s.mem.cv c)

/-- R13: the two kinds of holder are separate: a command not addressed to a counting vector leaves every counting
vector alone and does not read one (its response and its effect on the bit vectors are the same whatever they hold),
and the other way round. -/
def Obligations.KindsOfHolderAreSeparate : Prop :=
  ∀ (i : Instr) (s s' t t' : State), s'.params = s.params → exec i s = .next t → exec i s' = .next t' →
    ((∀ c, target i ≠ some (.inr c)) → (∀ v, s'.mem.bv v = s.mem.bv v) →
      t'.rsp = t.rsp ∧ (∀ v, t'.mem.bv v = t.mem.bv v) ∧ (∀ c, t.mem.cv c = s.mem.cv c)) ∧
    ((∀ v, target i ≠ some (.inl v)) → (∀ c, s'.mem.cv c = s.mem.cv c) →
      t'.rsp = t.rsp ∧ (∀ c, t'.mem.cv c = t.mem.cv c) ∧ (∀ v, t.mem.bv v = s.mem.bv v))

/-- R20 (part), for the clause on the parameters: no step writes them. The other clauses are about the model's inputs
(log entry 3): with no input the block idles and loses no state (R174; log entry 7); taking a response, pending or not,
changes no holder (R51; log entry 6 where none is pending); and while a response is pending commands wait (R51, R191 (b);
log entry 5), so no step changes a holder but one whose first input other than a waiting command is a reset, whatever
is behind that input. What taking a response and a reset do beside is `OneCommandInFlight` and
`ResetEmptiesEveryHolder`. -/
def Obligations.ParametersAreNeverWritten : Prop :=
  ∀ s t : State, step s = .next t → t.params = s.params ∧
    (s.inputs.head? = none ∨ s.inputs.head? = some .takeResponse ∨
        (s.cmdReady = false ∧ ∀ (cs : List Command) (rest : List HostInput),
          s.inputs ≠ cs.map .command ++ .reset :: rest) →
      SameHolders s t)

/-- R60: for every command but the two raw writes the write-data word has no effect: on the decoding, on the status,
on the data or on the state; it is never part of legality; and the two raw writes store it unchanged. -/
def Obligations.WriteDataIsIgnoredElsewhere : Prop :=
  (∀ (cw wd wd' : Word) (i : Instr), decode ⟨cw, wd⟩ = .legal i → i.usesWd = false →
    decode ⟨cw, wd'⟩ = .legal i ∧ ∀ s, runCommand ⟨cw, wd⟩ s = runCommand ⟨cw, wd'⟩ s) ∧
  (∀ (cw wd wd' : Word), (decode ⟨cw, wd⟩).instr? = none → ∀ s, runCommand ⟨cw, wd⟩ s = runCommand ⟨cw, wd'⟩ s) ∧
  (∀ (cw wd x : Word) (rd : BvSel) (k : Nat), decode ⟨cw, wd⟩ = .legal (.bvWrw rd k x) → ∀ s : State,
    k < (s.mem.bv rd).length → ∃ t, runCommand ⟨cw, wd⟩ s = .next t ∧ memRead (t.mem.bv rd) k = wd) ∧
  (∀ (cw wd x : Word) (rd : CvSel) (k : Nat), decode ⟨cw, wd⟩ = .legal (.ssWr rd k x) → ∀ s : State,
    k < (s.mem.cv rd).length → ∃ t, runCommand ⟨cw, wd⟩ s = .next t ∧ memRead (t.mem.cv rd) k = wd)

/-! ### Encoding (spec/30_encoding.md) -/

/-- R55 (part): the rows of the opcode map are pairwise exclusive, so at most one matches a control word. -/
def Obligations.OpcodeRowsAreExclusive : Prop :=
  opcodeMap.length = 27 ∧ opcodeMap.Pairwise (fun r r' => ∀ cw : Word, ¬(r.accepts cw = true ∧ r'.accepts cw = true))

/-- Sanity: ten control words, R63's table and the examples of `bv.wrw` (R148) and `cv.clear` (R132), decode to the
commands they stand for. -/
def Obligations.ExampleWordsDecode : Prop :=
  decode ⟨0x0000000000000000#64, 0⟩ = .legal .nop ∧
  decode ⟨0x1000000000000010#64, 0⟩ = .legal (.bvNew .v0 16) ∧
  decode ⟨0x1130010000000010#64, 0⟩ = .legal (.bvFromElem .v3 16 true) ∧
  decode ⟨0x1210000000000025#64, 0⟩ = .legal (.bvSet .v1 37) ∧
  decode ⟨0x1810000000000000#64, 0x3C#64⟩ = .legal (.bvWrw .v1 0 0x3C#64) ∧
  decode ⟨0x2020100000000000#64, 0⟩ = .legal (.bvOr .v2 .v0 .v1) ∧
  decode ⟨0x2633100000000000#64, 0⟩ = .legal (.bvDifference .v3 .v3 .v1) ∧
  decode ⟨0x301000000000000A#64, 0⟩ = .legal (.ssNew .c1 10) ∧
  decode ⟨0x4200000000000007#64, 0⟩ = .legal (.cvIncrement .c0 7) ∧
  decode ⟨0x4410000000000000#64, 0⟩ = .legal (.cvClear .c1)

/-- Decode inverts encode: for every well-formed command, at every value of every operand. -/
def Obligations.DecodeInvertsEncode : Prop :=
  ∀ i : Instr, i.wellFormed = true → decode (encode i) = .legal i

/-- Encode inverts decode: a legal control word is exactly the one the encoder gives for the command it decodes to, so
no bit of it is ignored; the command is well formed, and its write-data word is kept when it uses one. -/
def Obligations.EncodeInvertsDecode : Prop :=
  ∀ (c : Command) (i : Instr), decode c = .legal i →
    i.wellFormed = true ∧ (encode i).cw = c.cw ∧ (i.usesWd = true → (encode i).wd = c.wd)

/-! ### Steps, ports and reset (spec/30_encoding.md R51, spec/70_reset_and_hazards.md) -/

/-- A step runs the decoded command: when the host's next input is a command that decodes to i and no response is
outstanding, the step is exec of i with that input consumed. -/
def Obligations.StepRunsTheDecodedCommand : Prop :=
  ∀ (s : State) (c : Command) (rest : List HostInput) (i : Instr),
    s.inputs = .command c :: rest → s.cmdReady = true → decode c = .legal i →
    step s = exec i { s with inputs := rest }

/-- R51 (part): after a command is accepted its one response is presented and `cmd_ready` is 0; commands presented
then wait, and while the host does nothing else nothing changes (log entry 5); taking the response, also while commands
wait, hands it over and makes the block ready, and the commands that wait are still held. The inputs and the responses
taken are the model's own fields (log entries 3, 9). -/
def Obligations.OneCommandInFlight : Prop :=
  (∀ (s t : State) (c : Command) (rest : List HostInput), s.inputs = .command c :: rest → s.cmdReady = true →
    step s = .next t → t.cmdReady = false ∧ t.rspValid = true ∧ t.inputs = rest ∧ t.taken = s.taken) ∧
  (∀ (s : State) (cs : List Command), s.inputs = cs.map .command → s.cmdReady = false → step s = .next s) ∧
  (∀ (s : State) (r : Response) (cs : List Command) (rest : List HostInput),
    s.inputs = cs.map .command ++ .takeResponse :: rest → s.rsp = some r →
    ∃ t, step s = .next t ∧ t.cmdReady = true ∧ t.taken = s.taken ++ [r] ∧ t.inputs = cs.map .command ++ rest ∧
      SameHolders s t)

/-- R196 (part): the host may take the response, and may reset, while it holds a command that waits; the command is
then accepted and runs, in the state with the response taken or in the reset state. The order in which the inputs are
handled is the model's form of it (log entries 3, 5). -/
def Obligations.HostMayActWhileACommandWaits : Prop :=
  ∀ (s : State) (r : Response) (c : Command) (rest : List HostInput), s.rsp = some r →
    (s.inputs = .command c :: .takeResponse :: rest →
      Sys2Proof.core.run 2 s = runCommand c { s with rsp := none, inputs := rest, taken := s.taken ++ [r] }) ∧
    (s.inputs = .command c :: .reset :: rest →
      Sys2Proof.core.run 2 s = runCommand c { s with mem := State.reset.mem, rsp := none, inputs := rest })

/-- R185 and R186 (part): a reset, with a response outstanding or not, and also while commands wait, leaves every
holder empty, no response and the block ready; the response of the abandoned command is never taken, and the commands
that wait are still held by the host (log entries 5, 8). -/
def Obligations.ResetEmptiesEveryHolder : Prop :=
  ∀ (s : State) (cs : List Command) (rest : List HostInput), s.inputs = cs.map .command ++ .reset :: rest →
    cs = [] ∨ s.cmdReady = false →
    ∃ t, step s = .next t ∧ (∀ v, t.mem.bv v = []) ∧ (∀ c, t.mem.cv c = []) ∧ t.rspValid = false ∧
      t.cmdReady = true ∧ t.inputs = cs.map .command ++ rest ∧ t.taken = s.taken

/-- R24: in the reset state, and in every state whose holders are empty as reset leaves them, `bv.is_empty` answers 1,
the counts answer 0, and every indexed command fails with IndexOutOfRange. -/
def Obligations.ResetStateAnswers : Prop :=
  State.reset.rsp = none ∧ (∀ v, State.reset.mem.bv v = []) ∧ (∀ c, State.reset.mem.cv c = []) ∧
  ∀ s : State, s.mem = State.reset.mem → ∀ (v : BvSel) (c : CvSel) (k : Nat) (x : Word),
    (∃ t, Completes (.bvIsEmpty v) s 1 t) ∧ (∃ t, Completes (.bvLen v) s 0 t) ∧
    (∃ t, Completes (.ssSlotCount c) s 0 t) ∧ (∃ t, Completes (.cvCounterCount c) s 0 t) ∧
    ∀ i ∈ [Instr.bvSet v k, .bvGet v k, .bvRdw v k, .bvWrw v k x, .ssGet c k, .ssWr c k x, .cvGet c k,
        .cvIncrement c k, .cvDecrement c k], Fails i s .indexOutOfRange

/-- R192: every command terminates: from every state the step answers a next state, never a fault or a refusal; and
so does every command in every state. -/
def Obligations.EveryStepAnswersANextState : Prop :=
  (∀ s : State, ∃ t, step s = .next t) ∧
  (∀ (c : Command) (s : State), ∃ t r, runCommand c s = .next t ∧ t.rsp = some r)

/-- The reset state meets the invariant (it rests on the parameters' values at reset, log entry 1). -/
def Obligations.ResetMeetsTheInvariant : Prop := State.reset.Inv

/-- Every step from every state that meets the invariant gives a state that meets it: no holder outgrows its capacity
(R10) and the parameters stay ones a build may have (R4). -/
def Obligations.EveryStepKeepsTheInvariant : Prop :=
  ∀ s : State, s.Inv → SafeOutcome (step s)

/-- R40, in the model's form: the commands of a run are executed one at a time in order, each atomic, one response each in the same order:
running the host's script for c1 .. cn from any state ready for a command gives the holders and the responses of
`exec(...exec(exec(s, c1), c2)..., cn)` on the holders alone, and nothing of the earlier history of the ports plays a
part. That it takes 2n steps, one to execute a command and one to take its response, and that the inputs and the
responses taken are lists of the state, is the model's choice (log entries 2, 3, 9). -/
def Obligations.RunIsTheFoldOfItsCommands : Prop :=
  ∀ (cs : List Command) (s : State) (rest : List HostInput), s.rsp = none → s.inputs = script cs ++ rest →
    ∃ m rs, transactAll s.params s.mem cs = some (m, rs) ∧ rs.length = cs.length ∧
      Sys2Proof.core.run (2 * cs.length) s =
        .next { s with mem := m, inputs := rest, taken := s.taken ++ rs }
end

