-- ==== Sys2Proof/Laws/State.lean ====
section
/-! SUPPORT. One lemma per field per update: holders of a memory, and the fields of a state under each update. -/

namespace Sys2Proof.Machine

/-! ### Holders of a memory -/

@[simp] theorem Memory.bv_setBv_same (m : Memory) (v : BvSel) (ws : List Word) : (m.setBv v ws).bv v = ws := by
  cases v <;> rfl

@[simp] theorem Memory.bv_setBv_ne (m : Memory) {v v' : BvSel} (ws : List Word) (h : v' ≠ v) :
    (m.setBv v ws).bv v' = m.bv v' := by
  cases v <;> cases v' <;> first | rfl | exact absurd rfl h

@[simp] theorem Memory.cv_setBv (m : Memory) (v : BvSel) (ws : List Word) (c : CvSel) :
    (m.setBv v ws).cv c = m.cv c := by
  cases v <;> cases c <;> rfl

@[simp] theorem Memory.cv_setCv_same (m : Memory) (c : CvSel) (ws : List Word) : (m.setCv c ws).cv c = ws := by
  cases c <;> rfl

@[simp] theorem Memory.cv_setCv_ne (m : Memory) {c c' : CvSel} (ws : List Word) (h : c' ≠ c) :
    (m.setCv c ws).cv c' = m.cv c' := by
  cases c <;> cases c' <;> first | rfl | exact absurd rfl h

@[simp] theorem Memory.bv_setCv (m : Memory) (c : CvSel) (ws : List Word) (v : BvSel) :
    (m.setCv c ws).bv v = m.bv v := by
  cases v <;> cases c <;> rfl

@[simp] theorem Memory.setBv_setBv (m : Memory) (v : BvSel) (ws ws' : List Word) :
    (m.setBv v ws).setBv v ws' = m.setBv v ws' := by
  cases v <;> rfl

@[simp] theorem Memory.setCv_setCv (m : Memory) (c : CvSel) (ws ws' : List Word) :
    (m.setCv c ws).setCv c ws' = m.setCv c ws' := by
  cases c <;> rfl

@[simp] theorem Memory.setBv_bv (m : Memory) (v : BvSel) : m.setBv v (m.bv v) = m := by
  cases v <;> rfl

@[simp] theorem Memory.setCv_cv (m : Memory) (c : CvSel) : m.setCv c (m.cv c) = m := by
  cases c <;> rfl

@[simp] theorem Memory.bv_empty (v : BvSel) : Memory.empty.bv v = [] := by
  cases v <;> rfl

@[simp] theorem Memory.cv_empty (c : CvSel) : Memory.empty.cv c = [] := by
  cases c <;> rfl

/-- Two memories whose holders agree are one memory: there is nothing else in it (R10). -/
theorem Memory.ext_holders {m m' : Memory} (hb : ∀ v, m.bv v = m'.bv v) (hc : ∀ c, m.cv c = m'.cv c) : m = m' := by
  have h0 := hb .v0
  have h1 := hb .v1
  have h2 := hb .v2
  have h3 := hb .v3
  have c0 := hc .c0
  have c1 := hc .c1
  cases m
  cases m'
  simp_all [Memory.bv, Memory.cv]

/-! ### Fields of a state -/

section
variable (s : State) (v : BvSel) (c : CvSel) (ws : List Word) (r : Response) (is : List HostInput)

@[simp] theorem State.setBv_mem : (s.setBv v ws).mem = s.mem.setBv v ws := rfl
@[simp] theorem State.setBv_rsp : (s.setBv v ws).rsp = s.rsp := rfl
@[simp] theorem State.setBv_params : (s.setBv v ws).params = s.params := rfl
@[simp] theorem State.setBv_inputs : (s.setBv v ws).inputs = s.inputs := rfl
@[simp] theorem State.setBv_taken : (s.setBv v ws).taken = s.taken := rfl

@[simp] theorem State.setCv_mem : (s.setCv c ws).mem = s.mem.setCv c ws := rfl
@[simp] theorem State.setCv_rsp : (s.setCv c ws).rsp = s.rsp := rfl
@[simp] theorem State.setCv_params : (s.setCv c ws).params = s.params := rfl
@[simp] theorem State.setCv_inputs : (s.setCv c ws).inputs = s.inputs := rfl
@[simp] theorem State.setCv_taken : (s.setCv c ws).taken = s.taken := rfl

@[simp] theorem State.present_mem : (s.present r).mem = s.mem := rfl
@[simp] theorem State.present_rsp : (s.present r).rsp = some r := rfl
@[simp] theorem State.present_params : (s.present r).params = s.params := rfl
@[simp] theorem State.present_inputs : (s.present r).inputs = s.inputs := rfl
@[simp] theorem State.present_taken : (s.present r).taken = s.taken := rfl

@[simp] theorem State.withInputs_mem : (s.withInputs is).mem = s.mem := rfl
@[simp] theorem State.withInputs_rsp : (s.withInputs is).rsp = s.rsp := rfl
@[simp] theorem State.withInputs_params : (s.withInputs is).params = s.params := rfl
@[simp] theorem State.withInputs_inputs : (s.withInputs is).inputs = is := rfl
@[simp] theorem State.withInputs_taken : (s.withInputs is).taken = s.taken := rfl

@[simp] theorem State.resetBlock_mem : s.resetBlock.mem = .empty := rfl
@[simp] theorem State.resetBlock_rsp : s.resetBlock.rsp = none := rfl
@[simp] theorem State.resetBlock_params : s.resetBlock.params = s.params := rfl
@[simp] theorem State.resetBlock_inputs : s.resetBlock.inputs = s.inputs := rfl
@[simp] theorem State.resetBlock_taken : s.resetBlock.taken = s.taken := rfl

@[simp] theorem State.takeResponse_mem : s.takeResponse.mem = s.mem := by
  unfold State.takeResponse; split <;> rfl
@[simp] theorem State.takeResponse_rsp : s.takeResponse.rsp = none := by
  unfold State.takeResponse; split <;> simp_all
@[simp] theorem State.takeResponse_params : s.takeResponse.params = s.params := by
  unfold State.takeResponse; split <;> rfl
@[simp] theorem State.takeResponse_inputs : s.takeResponse.inputs = s.inputs := by
  unfold State.takeResponse; split <;> rfl
theorem State.takeResponse_taken_some (h : s.rsp = some r) : s.takeResponse.taken = s.taken ++ [r] := by
  unfold State.takeResponse; simp [h]
theorem State.takeResponse_taken_none (h : s.rsp = none) : s.takeResponse.taken = s.taken := by
  unfold State.takeResponse; simp [h]

end

end Sys2Proof.Machine
end

