-- ==== Sys2Proof/Laws/Memory.lean ====
section
/-! SUPPORT. Reading and writing words, bits of words, and the capacity condition on a memory. -/

namespace Sys2Proof.Machine

/-! ### Words -/

@[simp] theorem memWrite_length (ws : List Word) (i : Nat) (x : Word) : (memWrite ws i x).length = ws.length := by
  simp [memWrite]

theorem memRead_memWrite_same {ws : List Word} {i : Nat} (h : i < ws.length) (x : Word) :
    memRead (memWrite ws i x) i = x := by
  simp [memRead, memWrite, h]

theorem memRead_memWrite_ne (ws : List Word) {i j : Nat} (h : j ≠ i) (x : Word) :
    memRead (memWrite ws i x) j = memRead ws j := by
  simp [memRead, memWrite, Ne.symm h]

theorem memRead_of_length_le {ws : List Word} {i : Nat} (h : ws.length ≤ i) : memRead ws i = 0 := by
  simp [memRead, h]

@[simp] theorem fill_length (n : Nat) (x : Word) : (fill n x).length = n := by
  simp [fill]

theorem memRead_fill {n i : Nat} (h : i < n) (x : Word) : memRead (fill n x) i = x := by
  simp [memRead, fill, h]

@[simp] theorem zeros_length (n : Nat) : (zeros n).length = n := fill_length n _

@[simp] theorem memRead_zeros (n i : Nat) : memRead (zeros n) i = 0 := by
  by_cases h : i < n
  · exact memRead_fill h _
  · exact memRead_of_length_le (by simpa using h)

@[simp] theorem zeroed_length (ws : List Word) : (zeroed ws).length = ws.length := zeros_length _

@[simp] theorem memRead_zeroed (ws : List Word) (i : Nat) : memRead (zeroed ws) i = 0 := memRead_zeros _ i

theorem combine_length (f : Word → Word → Word) {a b : List Word} (h : a.length = b.length) :
    (combine f a b).length = a.length := by
  simp [combine, h]

theorem combine_length_le (f : Word → Word → Word) (a b : List Word) : (combine f a b).length ≤ a.length := by
  simp [combine]

theorem memRead_combine (f : Word → Word → Word) {a b : List Word} (h : a.length = b.length) {i : Nat}
    (hi : i < a.length) : memRead (combine f a b) i = f (memRead a i) (memRead b i) := by
  have hb : i < b.length := h ▸ hi
  simp [memRead, combine, hi, hb]

/-- Two holders of one length whose words agree are equal. -/
theorem ext_memRead {a b : List Word} (h : a.length = b.length) (hw : ∀ i, i < a.length → memRead a i = memRead b i) :
    a = b := by
  refine List.ext_getElem h fun i ha hb => ?_
  simpa [memRead, ha, hb] using hw i ha

/-! ### Bits -/

/-- The model's bit k, as a bit of the word's number. -/
theorem bitAt_eq_testBit (ws : List Word) (k : Nat) : bitAt ws k = (memRead ws (k / 64)).toNat.testBit (k % 64) := by
  simp [bitAt, bitWord, bitInWord, BitVec.testBit_toNat]

theorem bitMask_getLsbD (k b : Nat) : (bitMask k).getLsbD b = decide (b = k % 64) := by
  have hk : k % 64 < 64 := Nat.mod_lt _ (by decide)
  simp only [bitMask, bitInWord, BitVec.getLsbD_shiftLeft, BitVec.getLsbD_one]
  rcases Nat.lt_trichotomy b (k % 64) with h | h | h
  · simp [h, Nat.ne_of_lt h]
  · simp [h, hk]
  · have h1 : b - k % 64 ≠ 0 := by omega
    simp [h1, Nat.ne_of_gt h]

/-! ### Capacity (R10) -/

/-- Every holder is within its capacity. -/
theorem Memory.wf_iff (p : Config.Params) (m : Memory) :
    m.wf p = true ↔ (∀ v, (m.bv v).length ≤ p.maxW) ∧ (∀ c, (m.cv c).length ≤ p.maxS) := by
  simp only [Memory.wf, Bool.and_eq_true, decide_eq_true_eq]
  constructor
  · rintro ⟨⟨⟨⟨⟨h0, h1⟩, h2⟩, h3⟩, h4⟩, h5⟩
    exact ⟨fun v => by cases v <;> assumption, fun c => by cases c <;> assumption⟩
  · rintro ⟨hb, hc⟩
    exact ⟨⟨⟨⟨⟨hb .v0, hb .v1⟩, hb .v2⟩, hb .v3⟩, hc .c0⟩, hc .c1⟩

theorem Memory.wf_empty (p : Config.Params) : Memory.empty.wf p = true := by
  simp [Memory.wf_iff]

/-- Replacing a bit-vector holder within its capacity keeps the condition. -/
theorem Memory.wf_setBv {p : Config.Params} {m : Memory} (h : m.wf p = true) (v : BvSel) {ws : List Word}
    (hw : ws.length ≤ p.maxW) : (m.setBv v ws).wf p = true := by
  rw [Memory.wf_iff] at h ⊢
  refine ⟨fun v' => ?_, fun c => by simpa using h.2 c⟩
  by_cases hv : v' = v
  · subst hv; simpa using hw
  · simpa [hv] using h.1 v'

/-- Replacing a counting-vector holder within its capacity keeps the condition. -/
theorem Memory.wf_setCv {p : Config.Params} {m : Memory} (h : m.wf p = true) (c : CvSel) {ws : List Word}
    (hw : ws.length ≤ p.maxS) : (m.setCv c ws).wf p = true := by
  rw [Memory.wf_iff] at h ⊢
  refine ⟨fun v => by simpa using h.1 v, fun c' => ?_⟩
  by_cases hc : c' = c
  · subst hc; simpa using hw
  · simpa [hc] using h.2 c'

end Sys2Proof.Machine
end

