-- ==== Sys2Proof/Laws/Counter.lean ====
section
/-! SUPPORT. Nibbles of a slot word: reading a replaced counter, and the other fifteen (R32, R128, R130). -/

namespace Sys2Proof.Machine

theorem nibbleAt_getLsbD (p j : Nat) (x : Word) :
    (nibbleAt p x).getLsbD j = (decide (j < 4) && x.getLsbD (nibbleShift p + j)) := by
  simp [nibbleAt]

theorem fieldMask_getLsbD {p : Nat} (i : Nat) :
    (fieldMask p).getLsbD i = (decide (i < 64) && decide (nibbleShift p ≤ i) && decide (i < nibbleShift p + 4)) := by
  have hf : ∀ n, (0xF#64).getLsbD n = decide (n < 4) := by
    intro n
    rcases Nat.lt_or_ge n 64 with h | h
    · interval_cases n <;> decide
    · have h4 : ¬ n < 4 := by omega
      simp [BitVec.getLsbD_of_ge _ _ h, h4]
  simp only [fieldMask, BitVec.getLsbD_shiftLeft, hf]
  rcases Nat.lt_or_ge i (nibbleShift p) with h | h
  · simp [h]
  · have h1 : ¬ i < nibbleShift p := by omega
    have h2 : (i - nibbleShift p < 4) = (i < nibbleShift p + 4) := by
      rw [eq_iff_iff]; omega
    simp [h1, h, h2]

theorem withNibble_getLsbD {p : Nat} (v : Nibble) (x : Word) (i : Nat) :
    (withNibble p v x).getLsbD i =
      if nibbleShift p ≤ i ∧ i < nibbleShift p + 4 then decide (i < 64) && v.getLsbD (i - nibbleShift p)
      else x.getLsbD i := by
  simp only [withNibble, BitVec.getLsbD_or, BitVec.getLsbD_and, BitVec.getLsbD_not, fieldMask_getLsbD,
    BitVec.getLsbD_shiftLeft, BitVec.getLsbD_setWidth]
  rcases Nat.lt_or_ge i 64 with hi | hi
  · rcases Nat.lt_or_ge i (nibbleShift p) with h | h
    · have h1 : ¬ nibbleShift p ≤ i := by omega
      simp [hi, h, h1]
    · rcases Nat.lt_or_ge i (nibbleShift p + 4) with h' | h'
      · have h1 : ¬ i < nibbleShift p := by omega
        have h2 : i - nibbleShift p < 64 := by omega
        simp [hi, h, h', h1, h2]
      · have h1 : ¬ i < nibbleShift p + 4 := by omega
        have h3 : v.getLsbD (i - nibbleShift p) = false := BitVec.getLsbD_of_ge _ _ (by omega)
        simp [hi, h1, h3]
  · simp [hi, show ¬ i < 64 by omega]

/-- The replaced counter reads as the new value. -/
theorem nibbleAt_withNibble_same (p : Nat) (v : Nibble) (x : Word) : nibbleAt p (withNibble p v x) = v := by
  apply BitVec.eq_of_getLsbD_eq
  intro j hj
  have h1 : nibbleShift p + j < 64 := by unfold nibbleShift; omega
  have h2 : nibbleShift p ≤ nibbleShift p + j ∧ nibbleShift p + j < nibbleShift p + 4 := by omega
  rw [nibbleAt_getLsbD, withNibble_getLsbD, if_pos h2]
  simp [hj, h1]

/-- The other fifteen counters of the word are untouched. -/
theorem nibbleAt_withNibble_ne {p q : Nat} (hp : p < 16) (hq : q < 16) (h : q ≠ p) (v : Nibble) (x : Word) :
    nibbleAt q (withNibble p v x) = nibbleAt q x := by
  apply BitVec.eq_of_getLsbD_eq
  intro j hj
  have h2 : ¬ (nibbleShift p ≤ nibbleShift q + j ∧ nibbleShift q + j < nibbleShift p + 4) := by
    unfold nibbleShift; omega
  rw [nibbleAt_getLsbD, nibbleAt_getLsbD, withNibble_getLsbD, if_neg h2]

/-- The bits outside the field mask are untouched. -/
theorem withNibble_outside (p : Nat) (v : Nibble) (x : Word) :
    withNibble p v x &&& ~~~fieldMask p = x &&& ~~~fieldMask p := by
  apply BitVec.eq_of_getLsbD_eq
  intro i hi
  simp only [BitVec.getLsbD_and, BitVec.getLsbD_not, fieldMask_getLsbD, withNibble_getLsbD]
  split
  · simp_all
  · rfl

/-- The model's counter, as a digit of the word's number. -/
theorem nibbleAt_toNat (p : Nat) (x : Word) : (nibbleAt p x).toNat = x.toNat / 16 ^ (15 - p) % 16 := by
  have h : (2 : Nat) ^ ((15 - p) * 4) = 16 ^ (15 - p) := by
    rw [Nat.mul_comm, Nat.pow_mul]
  simp [nibbleAt, nibbleShift, BitVec.extractLsb'_toNat, Nat.shiftRight_eq_div_pow, h]

/-! ### The transforms (R128, R130): everything they can answer -/

theorem incT_of_max {p : Nat} {x : Word} (h : nibbleAt p x = 15#4) : incT p x = .unchanged := by
  simp [incT, h]

theorem incT_of_not_max {p : Nat} {x : Word} (h : nibbleAt p x ≠ 15#4) :
    incT p x = .replace (withNibble p (nibbleAt p x + 1#4) x) := by
  simp [incT, h]

theorem decT_of_zero {p : Nat} {x : Word} (h : nibbleAt p x = 0#4) : decT p x = .unchanged := by
  simp [decT, h]

theorem decT_of_not_zero {p : Nat} {x : Word} (h : nibbleAt p x ≠ 0#4) :
    decT p x = .replace (withNibble p (nibbleAt p x - 1#4) x) := by
  simp [decT, h]

end Sys2Proof.Machine
end

