-- ==== Sys2Proof/Laws/Decode.lean ====
section
/-! SUPPORT. Fields and control words are one thing in two forms, a row's mask test is a test of fields, and the rows
of the opcode map differ in their opcode. -/

namespace Sys2Proof

/-! ### Fields and words -/

theorem Fields.ofWord_toWord (f : Fields) : Fields.ofWord f.toWord = f := by
  obtain ⟨op, rd, ra, rb, fn, rsv, imm⟩ := f
  simp only [Fields.ofWord, Fields.mk.injEq]
  refine ⟨?_, ?_, ?_, ?_, ?_, ?_, ?_⟩ <;>
    · apply BitVec.eq_of_getLsbD_eq
      intro i hi
      simp only [Fields.toWord, BitVec.getLsbD_extractLsb', BitVec.getLsbD_append]
      simp [hi]
      try grind

theorem Fields.toWord_ofWord (cw : Word) : (Fields.ofWord cw).toWord = cw := by
  apply BitVec.eq_of_getLsbD_eq
  intro i hi
  simp only [Fields.toWord, Fields.ofWord, BitVec.getLsbD_extractLsb', BitVec.getLsbD_append]
  grind

theorem Fields.toWord_injective {f g : Fields} (h : f.toWord = g.toWord) : f = g := by
  rw [← Fields.ofWord_toWord f, h, Fields.ofWord_toWord]

theorem Fields.toWord_and (f g : Fields) :
    f.toWord &&& g.toWord = Fields.toWord ⟨f.op &&& g.op, f.rd &&& g.rd, f.ra &&& g.ra, f.rb &&& g.rb, f.fn &&& g.fn,
      f.rsv &&& g.rsv, f.imm &&& g.imm⟩ := by
  apply BitVec.eq_of_getLsbD_eq
  intro i hi
  simp only [Fields.toWord, BitVec.getLsbD_and, BitVec.getLsbD_append]
  grind

/-- The control word as a number: each field times the weight of its lowest bit (R52). -/
theorem Fields.toWord_toNat (f : Fields) :
    f.toWord.toNat = f.op.toNat * 2 ^ 56 + f.rd.toNat * 2 ^ 52 + f.ra.toNat * 2 ^ 48 + f.rb.toNat * 2 ^ 44 +
      f.fn.toNat * 2 ^ 40 + f.rsv.toNat * 2 ^ 32 + f.imm.toNat := by
  have happ : ∀ {m n : Nat} (a : BitVec m) (b : BitVec n), (a ++ b).toNat = a.toNat * 2 ^ n + b.toNat := by
    intro m n a b
    rw [BitVec.toNat_append, Nat.shiftLeft_eq, Nat.mul_comm, ← Nat.two_pow_add_eq_or_of_lt b.isLt]
  obtain ⟨op, rd, ra, rb, fn, rsv, imm⟩ := f
  change ((((((op ++ rd) ++ ra) ++ rb) ++ fn) ++ rsv) ++ imm).toNat = _
  rw [happ, happ, happ, happ, happ, happ]
  ring

/-! ### The mask test, field by field (R53) -/

/-- The fields of a format's mask. -/
def Format.maskFields : Format → Fields
  | .z => ⟨0xFF, 0xF, 0xF, 0xF, 0xF, 0xFF, 0xFFFFFFFF⟩
  | .bt => ⟨0xFF, 0xC, 0xF, 0xF, 0xF, 0xFF, 0xFFFFFFFF⟩
  | .bti => ⟨0xFF, 0xC, 0xF, 0xF, 0xF, 0xFF, 0⟩
  | .btif => ⟨0xFF, 0xC, 0xF, 0xF, 0xE, 0xFF, 0⟩
  | .br3 => ⟨0xFF, 0xC, 0xC, 0xC, 0xF, 0xFF, 0xFFFFFFFF⟩
  | .ct => ⟨0xFF, 0xE, 0xF, 0xF, 0xF, 0xFF, 0xFFFFFFFF⟩
  | .cti => ⟨0xFF, 0xE, 0xF, 0xF, 0xF, 0xFF, 0⟩

theorem Format.maskFields_toWord (f : Format) : f.maskFields.toWord = f.mask := by
  cases f <;> decide

theorem Row.matchWord_eq (r : Row) : r.matchWord = Fields.toWord ⟨r.op, 0, 0, 0, 0, 0, 0⟩ := by
  apply BitVec.eq_of_getLsbD_eq
  intro i hi
  simp only [Row.matchWord, Fields.toWord, BitVec.getLsbD_shiftLeft, BitVec.getLsbD_setWidth, BitVec.getLsbD_append]
  simp
  grind

/-- A row accepts a word iff every field is right: the opcode the row's, and the bits its mask covers 0. -/
theorem Row.accepts_iff (r : Row) (cw : Word) :
    r.accepts cw = true ↔
      (Fields.ofWord cw).op = r.op ∧ (Fields.ofWord cw).rd &&& r.fmt.maskFields.rd = 0 ∧
      (Fields.ofWord cw).ra &&& r.fmt.maskFields.ra = 0 ∧ (Fields.ofWord cw).rb &&& r.fmt.maskFields.rb = 0 ∧
      (Fields.ofWord cw).fn &&& r.fmt.maskFields.fn = 0 ∧ (Fields.ofWord cw).rsv &&& r.fmt.maskFields.rsv = 0 ∧
      (Fields.ofWord cw).imm &&& r.fmt.maskFields.imm = 0 := by
  have hop : r.fmt.maskFields.op = BitVec.allOnes 8 := by cases r.fmt <;> rfl
  simp only [Row.accepts, beq_iff_eq]
  conv_lhs => rw [← Fields.toWord_ofWord cw, ← Format.maskFields_toWord, Fields.toWord_and, Row.matchWord_eq]
  constructor
  · intro h
    simpa only [hop, BitVec.and_allOnes, Fields.mk.injEq] using Fields.toWord_injective h
  · rintro ⟨h1, h2, h3, h4, h5, h6, h7⟩
    simp only [hop, h1, h2, h3, h4, h5, h6, h7, BitVec.and_allOnes]

/-- What a row accepts has the row's opcode. -/
theorem Row.op_of_accepts {r : Row} {cw : Word} (h : r.accepts cw = true) : (Fields.ofWord cw).op = r.op :=
  ((Row.accepts_iff r cw).mp h).1

/-! ### The opcode map (R54, R55) -/

theorem opcodeMap_ops_nodup : (opcodeMap.map Row.op).Nodup := by decide

/-- A row that accepts a control word is the row decoding finds. -/
theorem decode_of_accepts {r : Row} {c : Command} (hr : r ∈ opcodeMap) (ha : r.accepts c.cw = true) :
    decode c = .legal (r.build (Fields.ofWord c.cw) c.wd) := by
  have hsome : (opcodeMap.find? (fun r => r.accepts c.cw)).isSome :=
    List.find?_isSome.mpr ⟨r, hr, ha⟩
  obtain ⟨r', h'⟩ := Option.isSome_iff_exists.mp hsome
  have ha' : r'.accepts c.cw = true := by simpa using List.find?_some h'
  have hop : r'.op = r.op := (Row.op_of_accepts ha').symm.trans (Row.op_of_accepts ha)
  have hmem' : r' ∈ opcodeMap := List.mem_of_find?_eq_some h'
  have hrr : r' = r := List.inj_on_of_nodup_map opcodeMap_ops_nodup hmem' hr hop
  simp only [decode, h', hrr]

/-- A legal control word is accepted by a row of the map, and that row builds the command. -/
theorem accepts_of_decode {c : Command} {i : Instr} (h : decode c = .legal i) :
    ∃ r ∈ opcodeMap, r.accepts c.cw = true ∧ r.build (Fields.ofWord c.cw) c.wd = i := by
  unfold decode at h
  split at h
  · rename_i r hf
    exact ⟨r, List.mem_of_find?_eq_some hf, by simpa using List.find?_some hf, by simpa using h⟩
  · simp at h

/-- A control word is illegal iff no row accepts it. -/
theorem decode_instr?_eq_none (c : Command) : (decode c).instr? = none ↔ ∀ r ∈ opcodeMap, r.accepts c.cw = false := by
  constructor
  · intro h r hr
    by_contra ha
    rw [decode_of_accepts hr (by simpa using ha)] at h
    simp [Decoded.instr?] at h
  · intro h
    have hf : opcodeMap.find? (fun r => r.accepts c.cw) = none := by
      simpa [List.find?_eq_none] using h
    simp [decode, hf, Decoded.instr?]

/-! ### Operands survive encoding (R57, R58, R59) -/

@[simp] theorem BvSel.ofField_toField (v : BvSel) : BvSel.ofField v.toField = v := by cases v <;> rfl

@[simp] theorem CvSel.ofField_toField (c : CvSel) : CvSel.ofField c.toField = c := by cases c <;> rfl

theorem BvSel.toField_ofField {f : BitVec 4} (h : f &&& 0xC = 0) : (BvSel.ofField f).toField = f := by
  revert f; decide

theorem CvSel.toField_ofField {f : BitVec 4} (h : f &&& 0xE = 0) : (CvSel.ofField f).toField = f := by
  revert f; decide

theorem BvSel.toField_and (v : BvSel) : v.toField &&& 0xC = 0 := by cases v <;> rfl

theorem CvSel.toField_and (c : CvSel) : c.toField &&& 0xE = 0 := by cases c <;> rfl

theorem fill_getLsbD (bit : Bool) : (((BitVec.ofBool bit).setWidth 4 : BitVec 4)).getLsbD 0 = bit := by
  cases bit <;> rfl

theorem fill_and (bit : Bool) : ((BitVec.ofBool bit).setWidth 4 : BitVec 4) &&& 0xE = 0 := by cases bit <;> rfl

theorem imm_toNat {n : Nat} (h : immFits n = true) : (BitVec.ofNat 32 n).toNat = n := by
  have hn : n < 2 ^ 32 := by simpa [immFits] using h
  simpa using Nat.mod_eq_of_lt hn

end Sys2Proof
end

