-- ==== Sys2Proof/Laws/Ops.lean ====
section
/-! SUPPORT. What each shared operation answers, said once: cited instead of unfolding it. -/

namespace Sys2Proof.Machine

theorem respond_eq (d : Word) (s : State) : respond d s = .next { s with rsp := some (.ok d) } := rfl

theorem raise_eq (e : Error) (s : State) : raise e s = .next { s with rsp := some (.error e) } := rfl

theorem withIndex_of_lt {k limit : Nat} (h : k < limit) (s : State) (go : Host.Outcome State Fault Refusal) :
    withIndex k limit s go = go := by
  simp [withIndex, h]

theorem withIndex_of_le {k limit : Nat} (h : limit ≤ k) (s : State) (go : Host.Outcome State Fault Refusal) :
    withIndex k limit s go = raise .indexOutOfRange s := by
  simp [withIndex, Nat.not_lt.mpr h]

theorem withCapacity_of_le {n capacity : Nat} (h : n ≤ capacity) (s : State)
    (go : Host.Outcome State Fault Refusal) : withCapacity n capacity s go = go := by
  simp [withCapacity, h]

theorem withCapacity_of_lt {n capacity : Nat} (h : capacity < n) (s : State)
    (go : Host.Outcome State Fault Refusal) : withCapacity n capacity s go = raise .capacityExceeded s := by
  simp [withCapacity, Nat.not_le.mpr h]

theorem execBoolean_of_eq (f : Word → Word → Word) (rd : BvSel) {ra rb : BvSel} {s : State}
    (h : (s.mem.bv ra).length = (s.mem.bv rb).length) :
    execBoolean f rd ra rb s = respond .zero (s.setBv rd (combine f (s.mem.bv ra) (s.mem.bv rb))) := by
  simp [execBoolean, h]

theorem execBoolean_of_ne (f : Word → Word → Word) (rd : BvSel) {ra rb : BvSel} {s : State}
    (h : (s.mem.bv ra).length ≠ (s.mem.bv rb).length) : execBoolean f rd ra rb s = raise .lengthMismatch s := by
  simp [execBoolean, h]

theorem update_of_replace {c : CvSel} {i : Nat} {t : Word → Candidate} {s : State} {y : Word}
    (h : t (memRead (s.mem.cv c) i) = .replace y) :
    update c i t s = (s.setCv c (memWrite (s.mem.cv c) i y), true) := by
  simp [update, h]

theorem update_of_unchanged {c : CvSel} {i : Nat} {t : Word → Candidate} {s : State}
    (h : t (memRead (s.mem.cv c) i) = .unchanged) : update c i t s = (s, false) := by
  simp [update, h]

/-- A counter command's three ends: out of range, committed, unchanged. -/
theorem execCounter_cases (t : Nat → Word → Candidate) (rd : CvSel) (k : Nat) (s : State) :
    (counterCount (s.mem.cv rd) ≤ k ∧ execCounter t rd k s = raise .indexOutOfRange s) ∨
    (k < counterCount (s.mem.cv rd) ∧ ∃ y, t (nibblePos k) (memRead (s.mem.cv rd) (counterSlot k)) = .replace y ∧
      execCounter t rd k s = respond (boolData true) (s.setCv rd (memWrite (s.mem.cv rd) (counterSlot k) y))) ∨
    (k < counterCount (s.mem.cv rd) ∧ t (nibblePos k) (memRead (s.mem.cv rd) (counterSlot k)) = .unchanged ∧
      execCounter t rd k s = respond (boolData false) s) := by
  rcases Nat.lt_or_ge k (counterCount (s.mem.cv rd)) with hk | hk
  · right
    cases ht : t (nibblePos k) (memRead (s.mem.cv rd) (counterSlot k)) with
    | replace y => exact .inl ⟨hk, y, rfl, by simp [execCounter, withIndex_of_lt hk, update_of_replace ht]⟩
    | unchanged => exact .inr ⟨hk, rfl, by simp [execCounter, withIndex_of_lt hk, update_of_unchanged ht]⟩
  · exact .inl ⟨hk, withIndex_of_le hk _ _⟩

/-! ### Everything a command can do -/

/-- What a command leaves: the parameters, the inputs and the taken responses as they were, and a response; when it
is an error, the same holders; and each holder either as it was or replaced within its capacity. -/
structure Effect (i : Instr) (s t : State) : Prop where
  host : SameHost s t
  response : ∃ r, t.rsp = some r
  failed : ∀ e, t.rsp = some (.error e) → SameHolders s t
  bvFrame : ∀ v, target i ≠ some (.inl v) → t.mem.bv v = s.mem.bv v
  cvFrame : ∀ c, target i ≠ some (.inr c) → t.mem.cv c = s.mem.cv c
  capacity : s.mem.wf s.params = true → t.mem.wf s.params = true

/-- A success that changes no holder. -/
theorem effect_respond (i : Instr) (s : State) (d : Word) : Effect i s (s.present (.ok d)) where
  host := ⟨rfl, rfl, rfl⟩
  response := ⟨_, rfl⟩
  failed := by simp
  bvFrame := by simp
  cvFrame := by simp
  capacity := by simp

/-- A failure. -/
theorem effect_raise (i : Instr) (s : State) (e : Error) : Effect i s (s.present (.error e)) where
  host := ⟨rfl, rfl, rfl⟩
  response := ⟨_, rfl⟩
  failed := fun _ _ => rfl
  bvFrame := by simp
  cvFrame := by simp
  capacity := by simp

/-- A success that replaces the bit-vector holder the command names. -/
theorem effect_setBv {i : Instr} {v : BvSel} (hi : target i = some (.inl v)) (s : State) (d : Word) {ws : List Word}
    (hw : s.mem.wf s.params = true → ws.length ≤ s.params.maxW) : Effect i s ((s.setBv v ws).present (.ok d)) where
  host := ⟨rfl, rfl, rfl⟩
  response := ⟨_, rfl⟩
  failed := by simp
  bvFrame := fun v' h => by
    have hv : v' ≠ v := fun e => h (e ▸ hi)
    simp [hv]
  cvFrame := by simp
  capacity := fun h => Memory.wf_setBv h v (hw h)

/-- A success that replaces the counting-vector holder the command names. -/
theorem effect_setCv {i : Instr} {c : CvSel} (hi : target i = some (.inr c)) (s : State) (d : Word) {ws : List Word}
    (hw : s.mem.wf s.params = true → ws.length ≤ s.params.maxS) : Effect i s ((s.setCv c ws).present (.ok d)) where
  host := ⟨rfl, rfl, rfl⟩
  response := ⟨_, rfl⟩
  failed := by simp
  bvFrame := by simp
  cvFrame := fun c' h => by
    have hc : c' ≠ c := fun e => h (e ▸ hi)
    simp [hc]
  capacity := fun h => Memory.wf_setCv h c (hw h)

theorem execBoolean_effect {i : Instr} {rd : BvSel} (hi : target i = some (.inl rd)) (f : Word → Word → Word)
    (ra rb : BvSel) (s : State) : ∃ t, execBoolean f rd ra rb s = .next t ∧ Effect i s t := by
  by_cases h : (s.mem.bv ra).length = (s.mem.bv rb).length
  · refine ⟨_, execBoolean_of_eq f rd h, effect_setBv hi s _ fun hwf => ?_⟩
    exact Nat.le_trans (combine_length_le f _ _) (((Memory.wf_iff _ _).mp hwf).1 ra)
  · exact ⟨_, execBoolean_of_ne f rd h, effect_raise i s _⟩

theorem execCounter_effect {i : Instr} {rd : CvSel} (hi : target i = some (.inr rd)) (t : Nat → Word → Candidate)
    (k : Nat) (s : State) : ∃ u, execCounter t rd k s = .next u ∧ Effect i s u := by
  rcases execCounter_cases t rd k s with ⟨_, h⟩ | ⟨_, y, _, h⟩ | ⟨_, _, h⟩
  · exact ⟨_, h, effect_raise i s _⟩
  · exact ⟨_, h, effect_setCv hi s _ fun hwf => by simpa using ((Memory.wf_iff _ _).mp hwf).2 rd⟩
  · exact ⟨_, h, effect_respond i s _⟩

theorem withIndex_effect {i : Instr} {s : State} {go : Host.Outcome State Fault Refusal} (k limit : Nat)
    (h : k < limit → ∃ t, go = .next t ∧ Effect i s t) : ∃ t, withIndex k limit s go = .next t ∧ Effect i s t := by
  rcases Nat.lt_or_ge k limit with hk | hk
  · rw [withIndex_of_lt hk]; exact h hk
  · exact ⟨_, withIndex_of_le hk s go, effect_raise i s _⟩

theorem withCapacity_effect {i : Instr} {s : State} {go : Host.Outcome State Fault Refusal} (n capacity : Nat)
    (h : n ≤ capacity → ∃ t, go = .next t ∧ Effect i s t) :
    ∃ t, withCapacity n capacity s go = .next t ∧ Effect i s t := by
  rcases Nat.lt_or_ge capacity n with hn | hn
  · exact ⟨_, withCapacity_of_lt hn s go, effect_raise i s _⟩
  · rw [withCapacity_of_le hn]; exact h hn

theorem bv_length_le {s : State} (h : s.mem.wf s.params = true) (v : BvSel) : (s.mem.bv v).length ≤ s.params.maxW :=
  ((Memory.wf_iff _ _).mp h).1 v

theorem cv_length_le {s : State} (h : s.mem.wf s.params = true) (c : CvSel) : (s.mem.cv c).length ≤ s.params.maxS :=
  ((Memory.wf_iff _ _).mp h).2 c

/-- Every command answers a next state, and its whole effect is one of the above. -/
theorem exec_effect (i : Instr) (s : State) : ∃ t, exec i s = .next t ∧ Effect i s t := by
  cases i with
  | nop => exact ⟨_, rfl, effect_respond _ s _⟩
  | bvNew rd n =>
    exact withCapacity_effect n _ fun h => ⟨_, rfl, effect_setBv rfl s _ fun _ => by simpa using h⟩
  | bvFromElem rd n bit =>
    exact withCapacity_effect n _ fun h => ⟨_, rfl, effect_setBv rfl s _ fun _ => by simpa using h⟩
  | bvSet rd k =>
    exact withIndex_effect k _ fun _ => ⟨_, rfl, effect_setBv rfl s _ fun h => by simpa using bv_length_le h rd⟩
  | bvGet rd k => exact withIndex_effect k _ fun _ => ⟨_, rfl, effect_respond _ s _⟩
  | bvClear rd => exact ⟨_, rfl, effect_setBv rfl s _ fun h => by simpa using bv_length_le h rd⟩
  | bvIsEmpty rd => exact ⟨_, rfl, effect_respond _ s _⟩
  | bvLen rd => exact ⟨_, rfl, effect_respond _ s _⟩
  | bvRdw rd k => exact withIndex_effect k _ fun _ => ⟨_, rfl, effect_respond _ s _⟩
  | bvWrw rd k x =>
    exact withIndex_effect k _ fun _ => ⟨_, rfl, effect_setBv rfl s _ fun h => by simpa using bv_length_le h rd⟩
  | bvOr rd ra rb => exact execBoolean_effect rfl _ ra rb s
  | bvAnd rd ra rb => exact execBoolean_effect rfl _ ra rb s
  | bvXor rd ra rb => exact execBoolean_effect rfl _ ra rb s
  | bvNand rd ra rb => exact execBoolean_effect rfl _ ra rb s
  | bvNor rd ra rb => exact execBoolean_effect rfl _ ra rb s
  | bvXnor rd ra rb => exact execBoolean_effect rfl _ ra rb s
  | bvDifference rd ra rb => exact execBoolean_effect rfl _ ra rb s
  | ssNew rd n =>
    exact withCapacity_effect n _ fun h => ⟨_, rfl, effect_setCv rfl s _ fun _ => by simpa using h⟩
  | ssGet rd k => exact withIndex_effect k _ fun _ => ⟨_, rfl, effect_respond _ s _⟩
  | ssSlotCount rd => exact ⟨_, rfl, effect_respond _ s _⟩
  | ssClear rd => exact ⟨_, rfl, effect_setCv rfl s _ fun h => by simpa using cv_length_le h rd⟩
  | ssWr rd k x =>
    exact withIndex_effect k _ fun _ => ⟨_, rfl, effect_setCv rfl s _ fun h => by simpa using cv_length_le h rd⟩
  | cvCounterCount rd => exact ⟨_, rfl, effect_respond _ s _⟩
  | cvGet rd k => exact withIndex_effect k _ fun _ => ⟨_, rfl, effect_respond _ s _⟩
  | cvIncrement rd k => exact execCounter_effect rfl _ k s
  | cvDecrement rd k => exact execCounter_effect rfl _ k s
  | cvClear rd => exact ⟨_, rfl, effect_setCv rfl s _ fun h => by simpa using cv_length_le h rd⟩

/-! ### What a command depends on -/

theorem update_congr {s s' : State} (hm : s'.mem = s.mem) (c : CvSel) (i : Nat) (f : Word → Candidate) :
    (update c i f s').1 = { s' with mem := (update c i f s).1.mem } ∧ (update c i f s').2 = (update c i f s).2 := by
  unfold update
  rw [hm]
  split
  · exact ⟨by simp [State.setCv, hm], rfl⟩
  · exact ⟨by rw [← hm], rfl⟩

/-- A command depends on the holders and the parameters only: from states that agree on those it leaves the same holders
and the same response, and everything else as it was. -/
theorem exec_congr {s s' : State} (hm : s'.mem = s.mem) (hp : s'.params = s.params) (i : Instr) {t : State}
    (h : exec i s = .next t) : exec i s' = .next { s' with mem := t.mem, rsp := t.rsp } := by
  obtain ⟨m, r, p, is, ts⟩ := s
  obtain ⟨m', r', p', is', ts'⟩ := s'
  simp only at hm hp
  subst hm hp
  have hix : ∀ {k limit : Nat} {d : Word} {w w' : State},
      withIndex k limit ⟨m', r, p', is, ts⟩ (respond d w) = .next t →
      w' = { w with rsp := w'.rsp, inputs := is', taken := ts' } → w.params = p' →
      withIndex k limit ⟨m', r', p', is', ts'⟩ (respond d w') = .next ⟨t.mem, t.rsp, p', is', ts'⟩ := by
    rintro k limit d w w' h hw rfl
    rw [hw]
    unfold withIndex at h ⊢
    split at h <;> cases h <;> rename_i hk <;> simp [hk] <;> rfl
  cases i with
  | nop | bvClear | bvIsEmpty | bvLen | ssSlotCount | ssClear | cvCounterCount | cvClear => cases h; rfl
  | bvNew | bvFromElem | ssNew =>
    simp only [exec, execBvNew, execBvFromElem, execSsNew, withCapacity] at h ⊢
    split at h <;> cases h <;> rename_i hk <;> simp [hk] <;> rfl
  | bvSet | bvGet | bvRdw | bvWrw | ssGet | ssWr | cvGet => exact hix h rfl rfl
  | cvIncrement rd k | cvDecrement rd k =>
    have := update_congr (s := ⟨m', r, p', is, ts⟩) (s' := ⟨m', r', p', is', ts'⟩) rfl
    simp only [exec, execCvIncrement, execCvDecrement, execCounter] at h ⊢
    have hpar : ∀ c i f, (update c i f ⟨m', r, p', is, ts⟩).1.params = p' := by
      intro c i f; unfold update; split <;> rfl
    rw [(this ..).1, (this ..).2]
    exact hix h (by simp [hpar]) (hpar ..)
  | bvOr | bvAnd | bvXor | bvNand | bvNor | bvXnor | bvDifference =>
    simp only [exec, execBvOr, execBvAnd, execBvXor, execBvNand, execBvNor, execBvXnor, execBvDifference,
      execBoolean] at h ⊢
    split at h <;> cases h <;> rename_i hk <;> simp [hk] <;> rfl
end Sys2Proof.Machine
end

