-- ==== Sys2Proof/Laws/PerInstr.lean ====
section
/-! SUPPORT. Per command: the control word the encoder gives is accepted by the row of the opcode map with the
command's opcode, and that row builds the command again (spec/30_encoding.md R52 to R55). -/

namespace Sys2Proof.Laws.EncodesToItsRow

/-- A well-formed command's control word is accepted by a row of the opcode map that builds the command from it. -/
def Statement (i : Instr) : Prop :=
  i.wellFormed = true → ∃ r ∈ opcodeMap, r.accepts (encode i).cw = true ∧
    r.build (Fields.ofWord (encode i).cw) (encode i).wd = i

/-- The row with a given opcode accepts a word made from fields its mask allows. -/
theorem row_accepts {r : Row} {f : Fields} (hop : f.op = r.op) (hrd : f.rd &&& r.fmt.maskFields.rd = 0)
    (hra : f.ra &&& r.fmt.maskFields.ra = 0) (hrb : f.rb &&& r.fmt.maskFields.rb = 0)
    (hfn : f.fn &&& r.fmt.maskFields.fn = 0) (hrsv : f.rsv &&& r.fmt.maskFields.rsv = 0)
    (himm : f.imm &&& r.fmt.maskFields.imm = 0) : r.accepts f.toWord = true := by
  rw [Row.accepts_iff, Fields.ofWord_toWord]
  exact ⟨hop, hrd, hra, hrb, hfn, hrsv, himm⟩

/-- A row of format BT. -/
theorem bt_row {r : Row} (hr : r ∈ opcodeMap) (hf : r.fmt = .bt) {mk : BvSel → Instr}
    (hb : r.build = fun f _ => mk (.ofField f.rd)) (rd : BvSel) (wd : Word) :
    ∃ r' ∈ opcodeMap, r'.accepts (wordBt r.op rd) = true ∧ r'.build (Fields.ofWord (wordBt r.op rd)) wd = mk rd :=
  ⟨r, hr, row_accepts rfl (by rw [hf]; exact rd.toField_and) (by simp) (by simp) (by simp) (by simp) (by simp),
    by simp [wordBt, Fields.ofWord_toWord, hb]⟩

/-- A row of format BTI. -/
theorem bti_row {r : Row} (hr : r ∈ opcodeMap) (hf : r.fmt = .bti) {mk : BvSel → Nat → Word → Instr}
    (hb : r.build = fun f wd => mk (.ofField f.rd) f.imm.toNat wd)
    (rd : BvSel) (n : Nat) (wd : Word) (h : immFits n = true) :
    ∃ r' ∈ opcodeMap, r'.accepts (wordBti r.op rd n) = true ∧
      r'.build (Fields.ofWord (wordBti r.op rd n)) wd = mk rd n wd :=
  ⟨r, hr, row_accepts rfl (by rw [hf]; exact rd.toField_and) (by simp) (by simp) (by simp) (by simp)
    (by rw [hf]; exact BitVec.and_zero),
    by simp [wordBti, imm_toNat h, Fields.ofWord_toWord, hb]⟩

/-- A row of format BTIF. -/
theorem btif_row {r : Row} (hr : r ∈ opcodeMap) (hf : r.fmt = .btif) {mk : BvSel → Nat → Bool → Instr}
    (hb : r.build = fun f _ => mk (.ofField f.rd) f.imm.toNat (f.fn.getLsbD 0))
    (rd : BvSel) (n : Nat) (bit : Bool) (wd : Word) (h : immFits n = true) :
    ∃ r' ∈ opcodeMap, r'.accepts (wordBtif r.op rd n bit) = true ∧
      r'.build (Fields.ofWord (wordBtif r.op rd n bit)) wd = mk rd n bit :=
  ⟨r, hr, row_accepts rfl (by rw [hf]; exact rd.toField_and) (by simp) (by simp) (by rw [hf]; exact fill_and bit)
    (by simp) (by rw [hf]; exact BitVec.and_zero),
    by simp [wordBtif, imm_toNat h, Fields.ofWord_toWord, hb]⟩

/-- A row of format BR3. -/
theorem br3_row {r : Row} (hr : r ∈ opcodeMap) (hf : r.fmt = .br3) {mk : BvSel → BvSel → BvSel → Instr}
    (hb : r.build = fun f _ => mk (.ofField f.rd) (.ofField f.ra) (.ofField f.rb)) (rd ra rb : BvSel) (wd : Word) :
    ∃ r' ∈ opcodeMap, r'.accepts (wordBr3 r.op rd ra rb) = true ∧
      r'.build (Fields.ofWord (wordBr3 r.op rd ra rb)) wd = mk rd ra rb :=
  ⟨r, hr, row_accepts rfl (by rw [hf]; exact rd.toField_and) (by rw [hf]; exact ra.toField_and)
    (by rw [hf]; exact rb.toField_and) (by simp) (by simp) (by simp),
    by simp [wordBr3, Fields.ofWord_toWord, hb]⟩

/-- A row of format CT. -/
theorem ct_row {r : Row} (hr : r ∈ opcodeMap) (hf : r.fmt = .ct) {mk : CvSel → Instr}
    (hb : r.build = fun f _ => mk (.ofField f.rd)) (rd : CvSel) (wd : Word) :
    ∃ r' ∈ opcodeMap, r'.accepts (wordCt r.op rd) = true ∧ r'.build (Fields.ofWord (wordCt r.op rd)) wd = mk rd :=
  ⟨r, hr, row_accepts rfl (by rw [hf]; exact rd.toField_and) (by simp) (by simp) (by simp) (by simp) (by simp),
    by simp [wordCt, Fields.ofWord_toWord, hb]⟩

/-- A row of format CTI. -/
theorem cti_row {r : Row} (hr : r ∈ opcodeMap) (hf : r.fmt = .cti) {mk : CvSel → Nat → Word → Instr}
    (hb : r.build = fun f wd => mk (.ofField f.rd) f.imm.toNat wd)
    (rd : CvSel) (n : Nat) (wd : Word) (h : immFits n = true) :
    ∃ r' ∈ opcodeMap, r'.accepts (wordCti r.op rd n) = true ∧
      r'.build (Fields.ofWord (wordCti r.op rd n)) wd = mk rd n wd :=
  ⟨r, hr, row_accepts rfl (by rw [hf]; exact rd.toField_and) (by simp) (by simp) (by simp) (by simp)
    (by rw [hf]; exact BitVec.and_zero),
    by simp [wordCti, imm_toNat h, Fields.ofWord_toWord, hb]⟩

theorem nop : Statement .nop := fun _ => ⟨opcodeMap[0], List.getElem_mem _, by decide, rfl⟩

theorem bvNew (rd : BvSel) (n : Nat) : Statement (.bvNew rd n) := fun h =>
  bti_row (r := opcodeMap[1]) (mk := fun rd n _ => .bvNew rd n) (List.getElem_mem _) rfl rfl rd n 0 h

theorem bvFromElem (rd : BvSel) (n : Nat) (bit : Bool) : Statement (.bvFromElem rd n bit) := fun h =>
  btif_row (r := opcodeMap[2]) (mk := .bvFromElem) (List.getElem_mem _) rfl rfl rd n bit 0 h

theorem bvSet (rd : BvSel) (k : Nat) : Statement (.bvSet rd k) := fun h =>
  bti_row (r := opcodeMap[3]) (mk := fun rd n _ => .bvSet rd n) (List.getElem_mem _) rfl rfl rd k 0 h

theorem bvGet (rd : BvSel) (k : Nat) : Statement (.bvGet rd k) := fun h =>
  bti_row (r := opcodeMap[4]) (mk := fun rd n _ => .bvGet rd n) (List.getElem_mem _) rfl rfl rd k 0 h

theorem bvClear (rd : BvSel) : Statement (.bvClear rd) := fun _ =>
  bt_row (r := opcodeMap[5]) (mk := .bvClear) (List.getElem_mem _) rfl rfl rd 0

theorem bvIsEmpty (rd : BvSel) : Statement (.bvIsEmpty rd) := fun _ =>
  bt_row (r := opcodeMap[6]) (mk := .bvIsEmpty) (List.getElem_mem _) rfl rfl rd 0

theorem bvLen (rd : BvSel) : Statement (.bvLen rd) := fun _ =>
  bt_row (r := opcodeMap[7]) (mk := .bvLen) (List.getElem_mem _) rfl rfl rd 0

theorem bvRdw (rd : BvSel) (i : Nat) : Statement (.bvRdw rd i) := fun h =>
  bti_row (r := opcodeMap[8]) (mk := fun rd n _ => .bvRdw rd n) (List.getElem_mem _) rfl rfl rd i 0 h

theorem bvWrw (rd : BvSel) (i : Nat) (x : Word) : Statement (.bvWrw rd i x) := fun h =>
  bti_row (r := opcodeMap[9]) (mk := fun rd n x => .bvWrw rd n x) (List.getElem_mem _) rfl rfl rd i x h

theorem bvOr (rd ra rb : BvSel) : Statement (.bvOr rd ra rb) := fun _ =>
  br3_row (r := opcodeMap[10]) (mk := .bvOr) (List.getElem_mem _) rfl rfl rd ra rb 0

theorem bvAnd (rd ra rb : BvSel) : Statement (.bvAnd rd ra rb) := fun _ =>
  br3_row (r := opcodeMap[11]) (mk := .bvAnd) (List.getElem_mem _) rfl rfl rd ra rb 0

theorem bvXor (rd ra rb : BvSel) : Statement (.bvXor rd ra rb) := fun _ =>
  br3_row (r := opcodeMap[12]) (mk := .bvXor) (List.getElem_mem _) rfl rfl rd ra rb 0

theorem bvNand (rd ra rb : BvSel) : Statement (.bvNand rd ra rb) := fun _ =>
  br3_row (r := opcodeMap[13]) (mk := .bvNand) (List.getElem_mem _) rfl rfl rd ra rb 0

theorem bvNor (rd ra rb : BvSel) : Statement (.bvNor rd ra rb) := fun _ =>
  br3_row (r := opcodeMap[14]) (mk := .bvNor) (List.getElem_mem _) rfl rfl rd ra rb 0

theorem bvXnor (rd ra rb : BvSel) : Statement (.bvXnor rd ra rb) := fun _ =>
  br3_row (r := opcodeMap[15]) (mk := .bvXnor) (List.getElem_mem _) rfl rfl rd ra rb 0

theorem bvDifference (rd ra rb : BvSel) : Statement (.bvDifference rd ra rb) := fun _ =>
  br3_row (r := opcodeMap[16]) (mk := .bvDifference) (List.getElem_mem _) rfl rfl rd ra rb 0

theorem ssNew (rd : CvSel) (n : Nat) : Statement (.ssNew rd n) := fun h =>
  cti_row (r := opcodeMap[17]) (mk := fun rd n _ => .ssNew rd n) (List.getElem_mem _) rfl rfl rd n 0 h

theorem ssGet (rd : CvSel) (i : Nat) : Statement (.ssGet rd i) := fun h =>
  cti_row (r := opcodeMap[18]) (mk := fun rd n _ => .ssGet rd n) (List.getElem_mem _) rfl rfl rd i 0 h

theorem ssSlotCount (rd : CvSel) : Statement (.ssSlotCount rd) := fun _ =>
  ct_row (r := opcodeMap[19]) (mk := .ssSlotCount) (List.getElem_mem _) rfl rfl rd 0

theorem ssClear (rd : CvSel) : Statement (.ssClear rd) := fun _ =>
  ct_row (r := opcodeMap[20]) (mk := .ssClear) (List.getElem_mem _) rfl rfl rd 0

theorem ssWr (rd : CvSel) (i : Nat) (x : Word) : Statement (.ssWr rd i x) := fun h =>
  cti_row (r := opcodeMap[21]) (mk := fun rd n x => .ssWr rd n x) (List.getElem_mem _) rfl rfl rd i x h

theorem cvCounterCount (rd : CvSel) : Statement (.cvCounterCount rd) := fun _ =>
  ct_row (r := opcodeMap[22]) (mk := .cvCounterCount) (List.getElem_mem _) rfl rfl rd 0

theorem cvGet (rd : CvSel) (k : Nat) : Statement (.cvGet rd k) := fun h =>
  cti_row (r := opcodeMap[23]) (mk := fun rd n _ => .cvGet rd n) (List.getElem_mem _) rfl rfl rd k 0 h

theorem cvIncrement (rd : CvSel) (k : Nat) : Statement (.cvIncrement rd k) := fun h =>
  cti_row (r := opcodeMap[24]) (mk := fun rd n _ => .cvIncrement rd n) (List.getElem_mem _) rfl rfl rd k 0 h

theorem cvDecrement (rd : CvSel) (k : Nat) : Statement (.cvDecrement rd k) := fun h =>
  cti_row (r := opcodeMap[25]) (mk := fun rd n _ => .cvDecrement rd n) (List.getElem_mem _) rfl rfl rd k 0 h

theorem cvClear (rd : CvSel) : Statement (.cvClear rd) := fun _ =>
  ct_row (r := opcodeMap[26]) (mk := .cvClear) (List.getElem_mem _) rfl rfl rd 0

end Sys2Proof.Laws.EncodesToItsRow
end

