-- ==== Sys2Proof/Laws/Step.lean ====
section
/-! SUPPORT. What a step does on each input, and everything a step can do. -/

namespace Sys2Proof.Machine

/-! ### Whose turn it is -/

/-- Commands alone, none of which the block can accept: nobody's turn. -/
theorem nextInput_waiting (cs : List Command) : nextInput false (cs.map .command) = none := by
  induction cs with
  | nil => rfl
  | cons c cs ih => simp [nextInput, ih]

/-- Behind commands that wait, the first other input has its turn, and the commands stay in front. -/
theorem nextInput_behind (cs : List Command) {i : HostInput} (hi : i = .takeResponse ∨ i = .reset)
    (rest : List HostInput) :
    nextInput false (cs.map .command ++ i :: rest) = some (i, cs.map .command ++ rest) := by
  induction cs with
  | nil => rcases hi with rfl | rfl <;> rfl
  | cons c cs ih => simp [nextInput, ih]

/-- A reset has its turn only as the first input, or behind nothing but commands. -/
theorem inputs_of_nextInput_reset {ready : Bool} {is rest : List HostInput}
    (h : nextInput ready is = some (.reset, rest)) :
    ∃ (cs : List Command) (rest' : List HostInput), is = cs.map .command ++ .reset :: rest' := by
  induction is generalizing rest with
  | nil => simp [nextInput] at h
  | cons i is ih =>
    cases i with
    | command c =>
      cases ready with
      | true => simp [nextInput] at h
      | false =>
        simp only [nextInput, Bool.false_eq_true, if_false, Option.map_eq_some_iff, Prod.mk.injEq] at h
        obtain ⟨⟨_, r⟩, h', rfl, _⟩ := h
        obtain ⟨cs, rest', rfl⟩ := ih h'
        exact ⟨c :: cs, rest', rfl⟩
    | takeResponse => simp [nextInput] at h
    | reset => exact ⟨[], is, rfl⟩

/-- A command has its turn only while the block is ready for one. -/
theorem ready_of_nextInput {ready : Bool} {is rest : List HostInput} {c : Command}
    (h : nextInput ready is = some (.command c, rest)) : ready = true := by
  induction is generalizing rest with
  | nil => simp [nextInput] at h
  | cons i is ih =>
    cases ready with
    | true => rfl
    | false =>
      cases i with
      | takeResponse | reset => simp [nextInput] at h
      | command d =>
        simp only [nextInput, Bool.false_eq_true, if_false, Option.map_eq_some_iff, Prod.mk.injEq] at h
        obtain ⟨⟨_, r⟩, h', rfl, _⟩ := h
        exact ih h'

/-! ### One step on each input -/

theorem step_idle {s : State} (h : s.inputs = []) : step s = .next s := by
  simp [step, handleInput, h, nextInput]

theorem step_reset {s : State} {rest : List HostInput} (h : s.inputs = .reset :: rest) :
    step s = .next (s.withInputs rest).resetBlock := by
  simp [step, handleInput, h, nextInput]

theorem step_takeResponse {s : State} {rest : List HostInput} (h : s.inputs = .takeResponse :: rest) :
    step s = .next (s.withInputs rest).takeResponse := by
  simp [step, handleInput, h, nextInput]

theorem step_command {s : State} {c : Command} {rest : List HostInput} (h : s.inputs = .command c :: rest)
    (hr : s.rsp = none) : step s = runCommand c (s.withInputs rest) := by
  simp [step, handleInput, h, nextInput, State.cmdReady, hr]

theorem step_waits {s : State} {cs : List Command} {r : Response} (h : s.inputs = cs.map .command)
    (hr : s.rsp = some r) : step s = .next s := by
  simp [step, handleInput, h, State.cmdReady, hr, nextInput_waiting]

theorem step_takeResponse_behind {s : State} {cs : List Command} {rest : List HostInput} {r : Response}
    (h : s.inputs = cs.map .command ++ .takeResponse :: rest) (hr : s.rsp = some r) :
    step s = .next (s.withInputs (cs.map .command ++ rest)).takeResponse := by
  simp [step, handleInput, h, State.cmdReady, hr, nextInput_behind]

theorem step_reset_behind {s : State} {cs : List Command} {rest : List HostInput} {r : Response}
    (h : s.inputs = cs.map .command ++ .reset :: rest) (hr : s.rsp = some r) :
    step s = .next (s.withInputs (cs.map .command ++ rest)).resetBlock := by
  simp [step, handleInput, h, State.cmdReady, hr, nextInput_behind]

/-! ### Running a command -/

theorem runCommand_legal {c : Command} {i : Instr} (h : decode c = .legal i) (s : State) :
    runCommand c s = exec i s := by
  simp [runCommand, h]

theorem runCommand_illegal {c : Command} {why : Illegal} (h : decode c = .illegal why) (s : State) :
    runCommand c s = raise .illegalCommand s := by
  simp [runCommand, h]

/-- What a command at the port leaves, legal or not. -/
structure CommandEffect (s t : State) : Prop where
  host : SameHost s t
  response : ∃ r, t.rsp = some r
  failed : ∀ e, t.rsp = some (.error e) → SameHolders s t
  capacity : s.mem.wf s.params = true → t.mem.wf s.params = true

/-- Every command at the port answers a next state, and its whole effect is one of the above. -/
theorem runCommand_effect (c : Command) (s : State) : ∃ t, runCommand c s = .next t ∧ CommandEffect s t := by
  cases h : decode c with
  | legal i =>
    obtain ⟨t, ht, he⟩ := exec_effect i s
    exact ⟨t, (runCommand_legal h s).trans ht, he.host, he.response, he.failed, he.capacity⟩
  | illegal why =>
    exact ⟨_, runCommand_illegal h s, ⟨rfl, rfl, rfl⟩, ⟨_, rfl⟩, fun _ _ => rfl, id⟩

/-- Everything a step can do: nothing, take a response, reset, or run a command the block is ready for. -/
theorem step_cases (s : State) :
    (nextInput s.cmdReady s.inputs = none ∧ step s = .next s) ∨
    (∃ rest, nextInput s.cmdReady s.inputs = some (.takeResponse, rest) ∧
      step s = .next (s.withInputs rest).takeResponse) ∨
    (∃ rest, nextInput s.cmdReady s.inputs = some (.reset, rest) ∧ step s = .next (s.withInputs rest).resetBlock) ∨
    (∃ c rest t, nextInput s.cmdReady s.inputs = some (.command c, rest) ∧ s.rsp = none ∧ step s = .next t ∧
      CommandEffect (s.withInputs rest) t) := by
  rcases hn : nextInput s.cmdReady s.inputs with _ | ⟨c | _ | _, rest⟩
  · exact .inl ⟨rfl, by simp [step, handleInput, hn]⟩
  · obtain ⟨t, ht, he⟩ := runCommand_effect c (s.withInputs rest)
    have hr : s.rsp = none := by simpa [State.cmdReady] using ready_of_nextInput hn
    exact .inr (.inr (.inr ⟨c, rest, t, rfl, hr, by simpa [step, handleInput, hn] using ht, he⟩))
  · exact .inr (.inl ⟨rest, rfl, by simp [step, handleInput, hn]⟩)
  · exact .inr (.inr (.inl ⟨rest, rfl, by simp [step, handleInput, hn]⟩))

end Sys2Proof.Machine
end

