-- ==== Sys2Proof/Tests/Slice0.lean ====
section
/-! SUPPORT. Tests, and for each statement with hypotheses a state and operands that meet them. The expected values are
those of spec/95_test_vectors.md (the section is named at each test), of the opcode map and the examples of
spec/30_encoding.md, or worked out by hand from the rule named. -/

open Sys2Proof Sys2Proof.Machine

namespace Sys2Proof.Tests

/-- The reset state with other holders. -/
def holding (m : Memory) : State := { State.reset with mem := m }

/-- What a command does to the holders, and its response. -/
def run (i : Instr) (m : Memory) : Option (Memory × Response) :=
  match exec i (holding m) with
  | .next t => t.rsp.map (fun r => (t.mem, r))
  | .fault _ => none
  | .refused _ => none

/-- The state a step answers. -/
def after (o : Host.Outcome State Fault Refusal) : Option State :=
  match o with
  | .next t => some t
  | .fault _ => none
  | .refused _ => none

/-- Only `BV[0]` holds words. -/
def onlyV0 (ws : List Word) : Memory := { Memory.empty with bv0 := ws }

/-- Only `CV[0]` holds slots. -/
def onlyC0 (ws : List Word) : Memory := { Memory.empty with cv0 := ws }

/-- S3 of the vectors: A = 0xF0 in `BV[0]`, B = 0x3C in `BV[1]`. -/
def pairAB : Memory := { Memory.empty with bv0 := [0xF0], bv1 := [0x3C] }

/-- The memory of `pairAB` with `BV[2]` set. -/
def pairABWith (x : Word) : Memory := { pairAB with bv2 := [x] }

/-- A memory with every kind of holder: two words, one word, none; counters 15 (number 0), 1 (number 1), 0, 5. -/
def mixed : Memory := ⟨[0x8000000000000001, 0x10], [0x18, 0x1000000000], [7], [], [0xF100000000000000, 0x5], [0x2]⟩

/-- The state on `mixed`. -/
def mixedState : State := holding mixed

/-! ### Ill-formed terms are refused: an immediate of 2^32 does not fit (R58) -/

theorem test_illformed_bv : (Instr.bvNew .v0 4294967296).wellFormed = false ∧
    (Instr.bvFromElem .v0 4294967296 true).wellFormed = false ∧ (Instr.bvSet .v0 4294967296).wellFormed = false ∧
    (Instr.bvGet .v0 4294967296).wellFormed = false ∧ (Instr.bvRdw .v0 4294967296).wellFormed = false ∧
    (Instr.bvWrw .v0 4294967296 0).wellFormed = false := by decide

theorem test_illformed_cv : (Instr.ssNew .c0 4294967296).wellFormed = false ∧
    (Instr.ssGet .c0 4294967296).wellFormed = false ∧ (Instr.ssWr .c0 4294967296 0).wellFormed = false ∧
    (Instr.cvGet .c0 4294967296).wellFormed = false ∧ (Instr.cvIncrement .c0 4294967296).wellFormed = false ∧
    (Instr.cvDecrement .c0 4294967296).wellFormed = false := by decide

theorem test_wellformed_edge : (Instr.bvSet .v0 4294967295).wellFormed = true ∧
    (Instr.cvGet .c1 4294967295).wellFormed = true := by decide

/-! ### Decoding: words written from R52 to R54 (the vectors' tables use the same ones) -/

theorem test_decode_system : decode ⟨0x0000000000000000, 0⟩ = .legal .nop ∧
    decode ⟨0x0000000000000000, 0xFFFFFFFFFFFFFFFF⟩ = .legal .nop := by decide

theorem test_decode_bit_vector :
    decode ⟨0x1000000000000010, 0⟩ = .legal (.bvNew .v0 16) ∧
    decode ⟨0x1130010000000010, 0⟩ = .legal (.bvFromElem .v3 16 true) ∧
    decode ⟨0x1110000000000002, 0⟩ = .legal (.bvFromElem .v1 2 false) ∧
    decode ⟨0x12100000FFFFFFFF, 0⟩ = .legal (.bvSet .v1 4294967295) ∧
    decode ⟨0x13200000000000BF, 0⟩ = .legal (.bvGet .v2 191) ∧
    decode ⟨0x1410000000000000, 0⟩ = .legal (.bvClear .v1) ∧
    decode ⟨0x1510000000000000, 0⟩ = .legal (.bvIsEmpty .v1) ∧
    decode ⟨0x1630000000000000, 0⟩ = .legal (.bvLen .v3) ∧
    decode ⟨0x17300000000003FF, 0⟩ = .legal (.bvRdw .v3 1023) ∧
    decode ⟨0x1810000000000001, 0x1000000000⟩ = .legal (.bvWrw .v1 1 0x1000000000) := by decide

theorem test_decode_boolean :
    decode ⟨0x2032100000000000, 0⟩ = .legal (.bvOr .v3 .v2 .v1) ∧
    decode ⟨0x2130300000000000, 0⟩ = .legal (.bvAnd .v3 .v0 .v3) ∧
    decode ⟨0x2233200000000000, 0⟩ = .legal (.bvXor .v3 .v3 .v2) ∧
    decode ⟨0x2331100000000000, 0⟩ = .legal (.bvNand .v3 .v1 .v1) ∧
    decode ⟨0x2420100000000000, 0⟩ = .legal (.bvNor .v2 .v0 .v1) ∧
    decode ⟨0x2520100000000000, 0⟩ = .legal (.bvXnor .v2 .v0 .v1) ∧
    decode ⟨0x2600100000000000, 0⟩ = .legal (.bvDifference .v0 .v0 .v1) := by decide

theorem test_decode_slot_storage :
    decode ⟨0x301000000000000A, 0⟩ = .legal (.ssNew .c1 10) ∧
    decode ⟨0x3100000000000003, 0⟩ = .legal (.ssGet .c0 3) ∧
    decode ⟨0x3210000000000000, 0⟩ = .legal (.ssSlotCount .c1) ∧
    decode ⟨0x3310000000000000, 0⟩ = .legal (.ssClear .c1) ∧
    decode ⟨0x3400000000000001, 0x5555555555555555⟩ = .legal (.ssWr .c0 1 0x5555555555555555) := by decide

theorem test_decode_counting_vector :
    decode ⟨0x4010000000000000, 0⟩ = .legal (.cvCounterCount .c1) ∧
    decode ⟨0x4110000000000000, 0⟩ = .legal (.cvGet .c1 0) ∧
    decode ⟨0x4200000000000007, 0⟩ = .legal (.cvIncrement .c0 7) ∧
    decode ⟨0x4300000000000011, 0⟩ = .legal (.cvDecrement .c0 17) ∧
    decode ⟨0x4400000000000000, 0⟩ = .legal (.cvClear .c0) := by decide

/-- All of these control words are illegal, for the one reason. -/
def illegalFor (why : Illegal) (cws : List Word) : Bool := cws.all (fun cw => decide (decode ⟨cw, 0⟩ = .illegal why))

/-- T1 of the vectors, rows 5 to 10: unassigned opcodes. -/
theorem test_decode_unassigned : illegalFor .unassignedOpcode
    [0x0100000000000000, 0x1900000000000000, 0x2700000000000000, 0x3500000000000000, 0x4500000000000000,
    0xFF00000000000000] = true := by decide

/-- T1 rows 3, 4, 20, 36: an immediate or a selector where the format has none. -/
theorem test_decode_unused_operand : illegalFor .fixedBitSet
    [0x0000000000000001, 0x0010000000000000, 0x1400000000000001, 0x4000000000000001] = true := by decide

/-- T1 rows 14 to 18, 28, 29, 35: an unused field that is not 0. -/
theorem test_decode_unused_field : illegalFor .fixedBitSet
    [0x1201000000000025, 0x1200100000000025, 0x1200010000000025, 0x1200000100000025, 0x1200008000000025,
    0x2000000000000001, 0x2000010000000000, 0x4101000000000000] = true := by decide

/-- T1 rows 12, 13, 25 to 27, 32, 34: a selector out of range. -/
theorem test_decode_selector : illegalFor .fixedBitSet
    [0x1240000000000025, 0x1280000000000025, 0x2040000000000000, 0x2004000000000000, 0x2000400000000000,
    0x302000000000000A, 0x4120000000000000] = true := by decide

/-- T1 rows 22, 23, 31: an undefined fill code or init policy. -/
theorem test_decode_code : illegalFor .fixedBitSet
    [0x1100020000000001, 0x1100030000000001, 0x300001000000000A] = true := by decide

theorem test_decode_table_word : decodeTableWord 64 0x1200000000000025 = some (.bvSet .v0 37) ∧
    decodeTableWord 64 0x1240000000000025 = none := by decide

/-- An encoded command is the word R63's table gives. -/
theorem test_encode : encode (.bvFromElem .v3 16 true) = ⟨0x1130010000000010, 0⟩ ∧
    encode (.bvOr .v2 .v0 .v1) = ⟨0x2020100000000000, 0⟩ ∧ encode (.ssNew .c1 10) = ⟨0x301000000000000A, 0⟩ ∧
    encode (.bvWrw .v1 0 0x3C) = ⟨0x1810000000000000, 0x3C⟩ := by decide

/-- The text of R63's examples. -/
theorem test_text : (Instr.bvNew .v0 16).text = "bv.new v0, 16" ∧
    (Instr.bvDifference .v3 .v3 .v1).text = "bv.difference v3, v3, v1" ∧ Instr.nop.text = "nop" := by decide

/-! ### Steps, ports, reset -/

/-- A table word placed where the next command stands is run by the next step. -/
theorem test_fetch_word :
    after (step (State.reset.withFetchWord 64 0x1000000000000002)) =
      some { State.reset with mem := onlyV0 [0, 0], rsp := some (.ok 0) } := by decide

/-- R51: the response is presented, a second command waits, and taking the response makes the block ready. -/
theorem test_handshake :
    let s : State := { holding (onlyV0 [5]) with rsp := some (.ok 1), inputs := [.command ⟨0x1400000000000000, 0⟩] }
    after (step s) = some s ∧ s.cmdReady = false ∧ s.rspValid = true ∧ s.rspStatus = some 0 ∧ s.rspData = some 1 ∧
    after (step { s with inputs := [.takeResponse] }) =
      some { s with rsp := none, inputs := [], taken := [.ok 1] } := by decide

/-- R196: the host takes the response, or resets, while it holds a command, which the block then accepts. -/
theorem test_waiting_command :
    let s : State := { holding (onlyV0 [5]) with rsp := some (.ok 1) }
    let c : HostInput := .command ⟨0x1400000000000000, 0⟩
    after (step { s with inputs := [c, .takeResponse] }) =
      some { s with rsp := none, inputs := [c], taken := [.ok 1] } ∧
    after (step { s with inputs := [c, c, .reset] }) = some { State.reset with inputs := [c, c] } ∧
    after (step { s with rsp := none, inputs := [c] }) =
      some { holding (onlyV0 [0]) with rsp := some (.ok 0) } := by decide

/-- R185: reset empties every holder and withdraws a response. -/
theorem test_reset : after (step { mixedState with rsp := some (.error .illegalCommand), inputs := [.reset] }) =
    some State.reset := by decide

/-- R56: an illegal control word answers status 3 and data 0, and changes no holder. -/
theorem test_illegal_command :
    after (step { mixedState with inputs := [.command ⟨0x1240000000000025, 0⟩] }) =
      some { mixedState with rsp := some (.error .illegalCommand) } ∧
    Response.status (.error .illegalCommand) = 3 ∧ Response.data (.error .illegalCommand) = 0 := by decide

/-! ### One command each: the vectors' rows -/

/-- T1 row 1. -/
theorem test_nop : run .nop mixed = some (mixed, .ok 0) := by decide

/-- T2 rows 1 and 27. -/
theorem test_bv_new : run (.bvNew .v0 2) (onlyV0 [9]) = some (onlyV0 [0, 0], .ok 0) ∧
    run (.bvNew .v0 0) (onlyV0 [9]) = some (Memory.empty, .ok 0) := by decide

/-- T2 rows 48 and 50. -/
theorem test_bv_new_capacity : run (.bvNew .v0 1025) (onlyV0 [9]) = some (onlyV0 [9], .error .capacityExceeded) ∧
    run (.bvNew .v0 4294967295) (onlyV0 [9]) = some (onlyV0 [9], .error .capacityExceeded) := by decide

/-- S2 rows 1 and 8. -/
theorem test_bv_from_elem :
    run (.bvFromElem .v0 2 true) (onlyV0 [9]) = some (onlyV0 [0xFFFFFFFFFFFFFFFF, 0xFFFFFFFFFFFFFFFF], .ok 0) ∧
    run (.bvFromElem .v0 2 false) (onlyV0 [9]) = some (onlyV0 [0, 0], .ok 0) := by decide

/-- T2 row 49. -/
theorem test_bv_from_elem_capacity :
    run (.bvFromElem .v0 1025 true) (onlyV0 [9]) = some (onlyV0 [9], .error .capacityExceeded) := by decide

/-- S1 row 3: bit 69 of two words. -/
theorem test_bv_set : run (.bvSet .v0 69) (onlyV0 [0, 0]) = some (onlyV0 [0, 0x20], .ok 0) ∧
    run (.bvSet .v0 63) (onlyV0 [1, 0]) = some (onlyV0 [0x8000000000000001, 0], .ok 0) := by decide

/-- T2 rows 16 and 18. -/
theorem test_bv_set_range : run (.bvSet .v0 128) (onlyV0 [0, 0]) = some (onlyV0 [0, 0], .error .indexOutOfRange) ∧
    run (.bvSet .v0 4294967295) (onlyV0 [0, 0]) = some (onlyV0 [0, 0], .error .indexOutOfRange) := by decide

/-- T2 rows 10, 13, 14. -/
theorem test_bv_get : run (.bvGet .v0 63) (onlyV0 [0x8000000000000001, 0x8000000000000001]) =
      some (onlyV0 [0x8000000000000001, 0x8000000000000001], .ok 1) ∧
    run (.bvGet .v0 126) (onlyV0 [0x8000000000000001, 0x8000000000000001]) =
      some (onlyV0 [0x8000000000000001, 0x8000000000000001], .ok 0) := by decide

/-- T2 row 15. -/
theorem test_bv_get_range : run (.bvGet .v0 128) (onlyV0 [0, 0]) = some (onlyV0 [0, 0], .error .indexOutOfRange) := by
  decide

/-- T2 rows 23 and 32. -/
theorem test_bv_clear : run (.bvClear .v0) (onlyV0 [0x8000000000000001, 5]) = some (onlyV0 [0, 0], .ok 0) ∧
    run (.bvClear .v1) (onlyV0 [5]) = some (onlyV0 [5], .ok 0) := by decide

/-- S4 rows 1 and 9: all bits 0 is not empty. -/
theorem test_bv_is_empty : run (.bvIsEmpty .v0) Memory.empty = some (Memory.empty, .ok 1) ∧
    run (.bvIsEmpty .v0) (onlyV0 [0, 0]) = some (onlyV0 [0, 0], .ok 0) := by decide

/-- S4 row 10. -/
theorem test_bv_len : run (.bvLen .v0) (onlyV0 [0, 0]) = some (onlyV0 [0, 0], .ok 2) := by decide

/-- P2 row 19, and one past the last word. -/
theorem test_bv_rdw : run (.bvRdw .v0 1) (onlyV0 [0, 1]) = some (onlyV0 [0, 1], .ok 1) ∧
    run (.bvRdw .v0 2) (onlyV0 [0, 1]) = some (onlyV0 [0, 1], .error .indexOutOfRange) := by decide

/-- P2 row 7, and one past the last word. -/
theorem test_bv_wrw : run (.bvWrw .v0 1 0x1000000000) (onlyV0 [0x18, 0]) = some (onlyV0 [0x18, 0x1000000000], .ok 0) ∧
    run (.bvWrw .v0 2 7) (onlyV0 [0x18, 0]) = some (onlyV0 [0x18, 0], .error .indexOutOfRange) := by decide

/-- S3's A and B: 0xFC is the complement of row 16; P2 row 25 for unequal lengths, as in the next ones. -/
theorem test_bv_or : run (.bvOr .v2 .v0 .v1) pairAB = some (pairABWith 0xFC, .ok 0) ∧
    run (.bvOr .v2 .v2 .v3) mixed = some (mixed, .error .lengthMismatch) := by decide

/-- S3: the complement of row 11. -/
theorem test_bv_and : run (.bvAnd .v2 .v0 .v1) pairAB = some (pairABWith 0x30, .ok 0) ∧
    run (.bvAnd .v3 .v0 .v2) mixed = some (mixed, .error .lengthMismatch) := by decide

/-- S3: the complement of row 6. -/
theorem test_bv_xor : run (.bvXor .v2 .v0 .v1) pairAB = some (pairABWith 0xCC, .ok 0) ∧
    run (.bvXor .v3 .v0 .v2) mixed = some (mixed, .error .lengthMismatch) := by decide

/-- S3 row 11. -/
theorem test_bv_nand : run (.bvNand .v2 .v0 .v1) pairAB = some (pairABWith 0xFFFFFFFFFFFFFFCF, .ok 0) ∧
    run (.bvNand .v3 .v0 .v2) mixed = some (mixed, .error .lengthMismatch) := by decide

/-- S3 row 16. -/
theorem test_bv_nor : run (.bvNor .v2 .v0 .v1) pairAB = some (pairABWith 0xFFFFFFFFFFFFFF03, .ok 0) ∧
    run (.bvNor .v3 .v0 .v2) mixed = some (mixed, .error .lengthMismatch) := by decide

/-- S3 row 6. -/
theorem test_bv_xnor : run (.bvXnor .v2 .v0 .v1) pairAB = some (pairABWith 0xFFFFFFFFFFFFFF33, .ok 0) ∧
    run (.bvXnor .v3 .v0 .v2) mixed = some (mixed, .error .lengthMismatch) := by decide

/-- S3 row 21; and into the second source, from its old word (R91). -/
theorem test_bv_difference : run (.bvDifference .v2 .v0 .v1) pairAB = some (pairABWith 0xC0, .ok 0) ∧
    run (.bvDifference .v1 .v0 .v1) pairAB = some ({ pairAB with bv1 := [0xC0] }, .ok 0) := by decide

/-- P4 row 4, and above MAXS. -/
theorem test_ss_new : run (.ssNew .c0 2) (onlyC0 [5]) = some (onlyC0 [0, 0], .ok 0) ∧
    run (.ssNew .c0 1025) (onlyC0 [5]) = some (onlyC0 [5], .error .capacityExceeded) := by decide

/-- S6 row 10, and one past the last slot. -/
theorem test_ss_get : run (.ssGet .c0 1) (onlyC0 [0x5555555555555555, 0x5655555555555555]) =
      some (onlyC0 [0x5555555555555555, 0x5655555555555555], .ok 0x5655555555555555) ∧
    run (.ssGet .c0 1) (onlyC0 [5]) = some (onlyC0 [5], .error .indexOutOfRange) := by decide

/-- P4 row 11. -/
theorem test_ss_slot_count : run (.ssSlotCount .c0) (onlyC0 [0, 0]) = some (onlyC0 [0, 0], .ok 2) := by decide

theorem test_ss_clear : run (.ssClear .c0) (onlyC0 [5, 6]) = some (onlyC0 [0, 0], .ok 0) := by decide

/-- P4 restore row 7, and one past the last slot. -/
theorem test_ss_wr : run (.ssWr .c0 0 0x2000000000000000) (onlyC0 [0, 1]) =
      some (onlyC0 [0x2000000000000000, 1], .ok 0) ∧
    run (.ssWr .c0 2 7) (onlyC0 [0, 1]) = some (onlyC0 [0, 1], .error .indexOutOfRange) := by decide

/-- P4 restore row 15. -/
theorem test_cv_counter_count : run (.cvCounterCount .c0) (onlyC0 [0, 0]) = some (onlyC0 [0, 0], .ok 32) := by decide

/-- S5 row 17, and P4 restore row 13 (counter 31 is the last digit of slot 1). -/
theorem test_cv_get : run (.cvGet .c0 3) (onlyC0 [0x000F000000000000, 1]) =
      some (onlyC0 [0x000F000000000000, 1], .ok 15) ∧
    run (.cvGet .c0 31) (onlyC0 [0x000F000000000000, 1]) = some (onlyC0 [0x000F000000000000, 1], .ok 1) := by decide

theorem test_cv_get_range : run (.cvGet .c0 16) (onlyC0 [5]) = some (onlyC0 [5], .error .indexOutOfRange) := by decide

/-- S6 row 4. -/
theorem test_cv_increment : run (.cvIncrement .c0 17) (onlyC0 [0x5555555555555555, 0x5555555555555555]) =
    some (onlyC0 [0x5555555555555555, 0x5655555555555555], .ok 1) := by decide

/-- S5 row 19: at 15 nothing is written. -/
theorem test_cv_increment_saturated :
    run (.cvIncrement .c0 3) (onlyC0 [0x000F000000000000]) = some (onlyC0 [0x000F000000000000], .ok 0) ∧
    run (.cvIncrement .c0 16) (onlyC0 [5]) = some (onlyC0 [5], .error .indexOutOfRange) := by decide

/-- S6 row 12. -/
theorem test_cv_decrement : run (.cvDecrement .c0 17) (onlyC0 [0x5555555555555555, 0x5555555555555555]) =
    some (onlyC0 [0x5555555555555555, 0x5455555555555555], .ok 1) := by decide

/-- S5 row 24: at 0 nothing is written. -/
theorem test_cv_decrement_floor :
    run (.cvDecrement .c0 4) (onlyC0 [0x000F000000000000]) = some (onlyC0 [0x000F000000000000], .ok 0) ∧
    run (.cvDecrement .c0 16) (onlyC0 [5]) = some (onlyC0 [5], .error .indexOutOfRange) := by decide

theorem test_cv_clear : run (.cvClear .c0) (onlyC0 [5, 6]) = some (onlyC0 [0, 0], .ok 0) := by decide

/-- S10: the field masks of counters 0, 7, 15, 37. -/
theorem test_field_masks : fieldMask (nibblePos 0) = 0xF000000000000000 ∧ fieldMask (nibblePos 7) = 0x0000000F00000000 ∧
    fieldMask (nibblePos 15) = 0x000000000000000F ∧ fieldMask (nibblePos 37) = 0x00000F0000000000 ∧
    bitMask 700 = 0x1000000000000000 ∧ bitWord 700 = 10 := by decide

/-! ### Witnesses: the statements' hypotheses, clause by clause, at the edges of their ranges -/

theorem witness_BvNewConstructsZeroWords : (4294967295 : Nat) < 2 ^ 32 ∧ 1024 ≤ State.reset.params.maxW ∧
    State.reset.params.maxW < 1025 := by decide

theorem witness_BvFromElemFillsEveryBit : (4294967295 : Nat) < 2 ^ 32 ∧ 1024 ≤ mixedState.params.maxW ∧
    mixedState.params.maxW < 1025 := by decide

theorem witness_BvSetSetsExactlyOneBit : (127 : Nat) < 2 ^ 32 ∧ 127 < (mixedState.mem.bv .v0).length * 64 ∧
    (mixedState.mem.bv .v0).length * 64 ≤ 128 := by decide

theorem witness_BvGetAnswersTheBit : 0 < (mixedState.mem.bv .v1).length * 64 ∧
    127 < (mixedState.mem.bv .v1).length * 64 ∧ (mixedState.mem.bv .v1).length * 64 ≤ 128 := by decide

theorem witness_BvClearZeroesEveryWord : 1 < (mixedState.mem.bv .v0).length ∧ 127 < (mixedState.mem.bv .v0).length * 64 ∧
    (mixedState.mem.bv .v0).length ≤ mixedState.params.maxW := by decide

theorem mixedState_inv : mixedState.Inv := by unfold State.Inv; decide

theorem witness_BvLengthQueriesAnswerTheLength : mixedState.Inv := mixedState_inv

theorem witness_BvSetThenGetLaws : 1 < (mixedState.mem.bv .v0).length * 64 ∧ 127 < (mixedState.mem.bv .v0).length * 64 ∧
    (127 : Nat) ≠ 1 ∧ bitVal (mixedState.mem.bv .v0) 63 = true ∧
    (mixedState.mem.bv .v0).length ≤ mixedState.params.maxW := by decide

/-- Equal lengths of 2 and of 0, and unequal ones. -/
theorem witness_BooleanRule : (mixedState.mem.bv .v0).length = (mixedState.mem.bv .v1).length ∧
    1 < (mixedState.mem.bv .v0).length ∧ (State.reset.mem.bv .v0).length = (State.reset.mem.bv .v1).length ∧
    (mixedState.mem.bv .v0).length ≠ (mixedState.mem.bv .v2).length := by decide

theorem witness_EqualSelectorsReadTheOldWords : 1 < (mixedState.mem.bv .v0).length ∧
    (mixedState.mem.bv .v1).length = (mixedState.mem.bv .v0).length := by decide

theorem witness_BooleanIdentitiesHold : (mixedState.mem.bv .v0).length = (mixedState.mem.bv .v1).length ∧
    BvSel.v3 ≠ .v0 ∧ 127 < (mixedState.mem.bv .v0).length * 64 := by decide

theorem witness_SsNewConstructsZeroSlots : (4294967295 : Nat) < 2 ^ 32 ∧ (1 : Nat) ≤ 15 ∧ (15 : Nat) < 16 ∧
    1024 ≤ mixedState.params.maxS ∧ mixedState.params.maxS < 1025 := by decide

theorem witness_SsGetAnswersTheSlot : (1 : Nat) < 2 ^ 32 ∧ 1 < (mixedState.mem.cv .c0).length ∧
    (mixedState.mem.cv .c0).length ≤ 2 := by decide

theorem witness_CountQueriesAnswerTheCounts : mixedState.Inv ∧
    ∃ t, exec (.ssNew .c0 3) mixedState = .next t ∧ (t.mem.cv .c0).length ≠ (mixedState.mem.cv .c0).length :=
  ⟨mixedState_inv, _, rfl, by decide⟩

theorem witness_ClearsZeroEveryCounter : 1 < (mixedState.mem.cv .c0).length ∧
    31 < (mixedState.mem.cv .c0).length * 16 := by decide

theorem witness_CvGetAnswersTheCounter : 31 < (mixedState.mem.cv .c0).length * 16 ∧
    (mixedState.mem.cv .c0).length * 16 ≤ 32 := by decide

theorem witness_CvIncrementSaturatesAtFifteen : 31 < (mixedState.mem.cv .c0).length * 16 ∧
    ctrVal (mixedState.mem.cv .c0) 31 = 5 ∧ ctrVal (mixedState.mem.cv .c0) 0 = 15 ∧
    (let t := holding (onlyC0 [0xE]); 15 < (t.mem.cv .c0).length * 16 ∧ ctrVal (t.mem.cv .c0) 15 = 14) ∧
    (mixedState.mem.cv .c0).length * 16 ≤ 32 := by decide

theorem witness_CvDecrementFloorsAtZero : 1 < (mixedState.mem.cv .c0).length * 16 ∧
    ctrVal (mixedState.mem.cv .c0) 1 = 1 ∧ ctrVal (mixedState.mem.cv .c0) 2 = 0 ∧
    (mixedState.mem.cv .c0).length * 16 ≤ 32 := by decide

theorem witness_IncrementsReachTheMinimum : 31 < (mixedState.mem.cv .c0).length * 16 := by decide

theorem witness_DecrementsReachTheMaximum : 0 < (mixedState.mem.cv .c0).length * 16 ∧
    ctrVal (mixedState.mem.cv .c0) 0 = 15 ∧ ctrVal (mixedState.mem.cv .c0) 1 < 15 := by decide

theorem witness_CounterLanesAreIndependent :
    (∃ t, exec (.cvIncrement .c0 1) mixedState = .next t ∧ t.mem ≠ mixedState.mem) ∧
    (∃ t, exec (.cvDecrement .c0 1) mixedState = .next t ∧ t.mem ≠ mixedState.mem) ∧ CvSel.c1 ≠ .c0 ∧ (0 : Nat) ≠ 1 :=
  ⟨⟨_, rfl, by decide⟩, ⟨_, rfl, by decide⟩, by decide, by decide⟩

/-- Counter 0 stands at 15 and counter 2 at 0. -/
theorem witness_SaturationIsNotAnError : 0 < (mixedState.mem.cv .c0).length * 16 ∧
    (Instr.cvIncrement .c0 0 = .cvIncrement .c0 0 → ctrVal (mixedState.mem.cv .c0) 0 = 15) ∧
    (Instr.cvIncrement .c0 0 = .cvDecrement .c0 0 → ctrVal (mixedState.mem.cv .c0) 0 = 0) ∧
    2 < (mixedState.mem.cv .c0).length * 16 ∧
    (Instr.cvDecrement .c0 2 = .cvIncrement .c0 2 → ctrVal (mixedState.mem.cv .c0) 2 = 15) ∧
    (Instr.cvDecrement .c0 2 = .cvDecrement .c0 2 → ctrVal (mixedState.mem.cv .c0) 2 = 0) := by decide

theorem witness_NopDoesNothing : (0x00FFFFFFFFFFFFFF#64).toNat / 2 ^ 56 = 0 ∧ 0x00FFFFFFFFFFFFFF#64 ≠ 0 := by decide

theorem witness_BvRdwAnswersTheWord : 1 < (mixedState.mem.bv .v0).length ∧ (63 : Nat) < 64 ∧
    (mixedState.mem.bv .v0).length ≤ 2 := by decide

theorem witness_BvWrwStoresTheWord : 1 < (mixedState.mem.bv .v0).length ∧ (0 : Nat) ≠ 1 ∧
    (mixedState.mem.bv .v0).length ≤ 2 := by decide

theorem witness_SsWrStoresSixteenCounters : 1 < (mixedState.mem.cv .c0).length ∧ (0 : Nat) ≠ 1 ∧ (15 : Nat) < 16 ∧
    (mixedState.mem.cv .c0).length ≤ 2 := by decide

theorem witness_RestoreRebuildsTheVector : [0x2#64, 0x8000000000000000#64].length ≤ mixedState.params.maxW ∧
    [0x2000000000000000#64, 1#64].length ≤ mixedState.params.maxS := by decide

/-- 0x0100… matches no row, 0x1230…25 matches that of `bv.set`. -/
theorem witness_IllegalCommandDependsOnCwAlone :
    (∀ r ∈ opcodeMap, 0x0100000000000000#64 &&& r.fmt.mask ≠ r.matchWord) ∧
    (∃ r ∈ opcodeMap, 0x1230000000000025#64 &&& r.fmt.mask = r.matchWord) := by decide

theorem witness_LegalControlWordsByTheirFields : (255 : Nat) < 256 ∧ (15 : Nat) < 16 ∧
    (4294967295 : Nat) < 2 ^ 32 ∧ (decode ⟨0xFFFFFFFFFFFFFFFF, 0⟩).instr? = none := by decide

/-- One failure of each kind. -/
theorem witness_FailedCommandChangesNothing :
    (∃ t, runCommand ⟨0x1240000000000025, 0⟩ mixedState = .next t ∧ t.rsp = some (.error .illegalCommand)) ∧
    (∃ t, runCommand ⟨0x1200000000000080, 0⟩ mixedState = .next t ∧ t.rsp = some (.error .indexOutOfRange)) ∧
    (∃ t, runCommand ⟨0x2020200000000000, 0⟩ mixedState = .next t ∧ t.rsp = some (.error .lengthMismatch)) ∧
    (∃ t, runCommand ⟨0x1000000000000401, 0⟩ mixedState = .next t ∧ t.rsp = some (.error .capacityExceeded)) :=
  ⟨⟨_, rfl, rfl⟩, ⟨_, rfl, rfl⟩, ⟨_, rfl, rfl⟩, ⟨_, rfl, rfl⟩⟩

theorem witness_StatusCodesAreFive :
    ∃ t, runCommand ⟨0x1300000000000000, 0⟩ mixedState = .next t ∧ t.rsp = some (.ok 1) := ⟨_, rfl, by decide⟩

theorem witness_ReadsHaveNoSideEffect :
    (readsOnly (.bvGet .v0 0) = true ∧ ∃ t, exec (.bvGet .v0 0) mixedState = .next t ∧ t.rsp = some (.ok 1)) ∧
    (idempotentWrite (.bvSet .v0 1) = true ∧
      ∃ t, exec (.bvSet .v0 1) mixedState = .next t ∧ t.mem ≠ mixedState.mem) ∧
    (∃ t, exec (.bvOr .v0 .v0 .v1) mixedState = .next t ∧ t.mem ≠ mixedState.mem) ∧
    (31 < (mixedState.mem.cv .c0).length * 16 ∧ ctrVal (mixedState.mem.cv .c0) 31 < 14 ∧
      1 < ctrVal (mixedState.mem.cv .c0) 31) :=
  ⟨⟨rfl, _, rfl, by decide⟩, ⟨rfl, _, rfl, by decide⟩, ⟨_, rfl, by decide⟩, by decide⟩

/-- A length does change. -/
theorem witness_OnlyConstructionsChangeALength :
    (∃ t, exec (.bvOr .v2 .v0 .v1) mixedState = .next t ∧
      (t.mem.bv .v2).length ≠ (mixedState.mem.bv .v2).length) ∧
    (∃ t, exec (.ssNew .c1 3) mixedState = .next t ∧ (t.mem.cv .c1).length ≠ (mixedState.mem.cv .c1).length) :=
  ⟨⟨_, rfl, by decide⟩, ⟨_, rfl, by decide⟩⟩

theorem witness_CommandsChangeAtMostTheirTarget :
    (∃ t, exec (.bvClear .v0) mixedState = .next t ∧ t.mem ≠ mixedState.mem) ∧
    target (.bvClear .v0) ≠ some (.inl .v1) ∧ target (.bvClear .v0) ≠ some (.inr .c0) :=
  ⟨⟨_, rfl, by decide⟩, by decide, by decide⟩

/-- The two states differ in the other kind of holder. -/
theorem witness_KindsOfHolderAreSeparate :
    (let s' := holding { mixed with cv0 := [] };
      s'.params = mixedState.params ∧ (∃ t, exec (.bvClear .v0) mixedState = .next t) ∧
      (∃ t, exec (.bvClear .v0) s' = .next t) ∧ (∀ c, target (.bvClear .v0) ≠ some (.inr c)) ∧
      (∀ v, s'.mem.bv v = mixedState.mem.bv v) ∧ s'.mem ≠ mixedState.mem) ∧
    (let s' := holding { mixed with bv0 := [] };
      s'.params = mixedState.params ∧ (∃ t, exec (.cvGet .c0 0) mixedState = .next t) ∧
      (∃ t, exec (.cvGet .c0 0) s' = .next t) ∧ (∀ v, target (.cvGet .c0 0) ≠ some (.inl v)) ∧
      (∀ c, s'.mem.cv c = mixedState.mem.cv c) ∧ s'.mem ≠ mixedState.mem) :=
  ⟨⟨rfl, ⟨_, rfl⟩, ⟨_, rfl⟩, by simp [target], fun v => by cases v <;> rfl, by decide⟩,
    ⟨rfl, ⟨_, rfl⟩, ⟨_, rfl⟩, by simp [target], fun c => by cases c <;> rfl, by decide⟩⟩

theorem witness_ParametersAreNeverWritten :
    (∃ t, step mixedState = .next t ∧ mixedState.inputs.head? = none) ∧
    (∃ t, step { mixedState with inputs := [.takeResponse] } = .next t ∧
      ({ mixedState with inputs := [.takeResponse] } : State).inputs.head? = some .takeResponse) ∧
    (let s : State := { mixedState with inputs := [.command ⟨0, 0⟩, .takeResponse, .reset], rsp := some (.ok 0) };
      (∃ t, step s = .next t) ∧ s.cmdReady = false ∧
        ∀ (cs : List Command) (rest : List HostInput), s.inputs ≠ cs.map .command ++ .reset :: rest) :=
  ⟨⟨_, rfl, rfl⟩, ⟨_, rfl, rfl⟩, ⟨_, rfl⟩, rfl, fun cs rest h => by
    rcases cs with _ | ⟨_, _ | ⟨_, cs⟩⟩ <;> simp at h⟩

theorem witness_WriteDataIsIgnoredElsewhere :
    (decode ⟨0x1200000000000025, 0⟩ = .legal (.bvSet .v0 37) ∧ (Instr.bvSet .v0 37).usesWd = false) ∧
    (decode ⟨0x1240000000000025, 0⟩).instr? = none ∧
    (decode ⟨0x1800000000000001, 7⟩ = .legal (.bvWrw .v0 1 7) ∧ 1 < (mixedState.mem.bv .v0).length) ∧
    (decode ⟨0x3400000000000001, 7⟩ = .legal (.ssWr .c0 1 7) ∧ 1 < (mixedState.mem.cv .c0).length) := by decide

theorem witness_DecodeInvertsEncode : (Instr.bvWrw .v3 4294967295 0xFFFFFFFFFFFFFFFF).wellFormed = true := by decide

theorem witness_EncodeInvertsDecode : decode ⟨0x18300000FFFFFFFF, 7⟩ = .legal (.bvWrw .v3 4294967295 7) ∧
    (Instr.bvWrw .v3 4294967295 7).usesWd = true := by decide

theorem witness_StepRunsTheDecodedCommand :
    let s : State := { mixedState with inputs := [.command ⟨0x1200000000000025, 0⟩, .takeResponse] }
    s.inputs = .command ⟨0x1200000000000025, 0⟩ :: [.takeResponse] ∧ s.cmdReady = true ∧
    decode ⟨0x1200000000000025, 0⟩ = .legal (.bvSet .v0 37) := by decide

theorem witness_OneCommandInFlight :
    (let s : State := { mixedState with inputs := [.command ⟨0, 0⟩] };
      s.inputs = .command ⟨0, 0⟩ :: [] ∧ s.cmdReady = true ∧ ∃ t, step s = .next t) ∧
    (let s : State := { mixedState with inputs := [.command ⟨0, 0⟩], rsp := some (.ok 0) };
      s.inputs = [(⟨0, 0⟩ : Command)].map .command ∧ s.cmdReady = false) ∧
    (let s : State := { mixedState with inputs := [.command ⟨0, 0⟩, .takeResponse, .reset], rsp := some (.ok 0) };
      s.inputs = [(⟨0, 0⟩ : Command)].map .command ++ .takeResponse :: [.reset] ∧ s.rsp = some (.ok 0)) :=
  ⟨⟨rfl, rfl, _, rfl⟩, ⟨rfl, rfl⟩, rfl, rfl⟩

theorem witness_HostMayActWhileACommandWaits :
    (let s : State := { mixedState with inputs := [.command ⟨0, 0⟩, .takeResponse], rsp := some (.ok 0) };
      s.rsp = some (.ok 0) ∧ s.inputs = .command ⟨0, 0⟩ :: .takeResponse :: []) ∧
    (let s : State := { mixedState with inputs := [.command ⟨0, 0⟩, .reset], rsp := some (.ok 0) };
      s.rsp = some (.ok 0) ∧ s.inputs = .command ⟨0, 0⟩ :: .reset :: []) := by decide

/-- With no command in front, and behind one that waits. -/
theorem witness_ResetEmptiesEveryHolder :
    (let s : State := { mixedState with inputs := [.reset] };
      s.inputs = ([] : List Command).map .command ++ .reset :: []) ∧
    (let s : State := { mixedState with inputs := [.command ⟨0, 0⟩, .reset], rsp := some (.ok 0) };
      s.inputs = [(⟨0, 0⟩ : Command)].map .command ++ .reset :: [] ∧ s.cmdReady = false) := by decide

theorem witness_ResetStateAnswers : State.reset.mem = State.reset.mem := rfl

theorem witness_EveryStepKeepsTheInvariant :
    ({ mixedState with inputs := [.command ⟨0x1000000000000400, 0⟩] } : State).Inv := mixedState_inv

theorem witness_RunIsTheFoldOfItsCommands :
    let s : State := { mixedState with inputs := script [⟨0x1200000000000025, 0⟩, ⟨0, 0⟩] ++ [.reset] }
    s.rsp = none ∧ s.inputs = script [⟨0x1200000000000025, 0⟩, ⟨0, 0⟩] ++ [.reset] := by decide

end Sys2Proof.Tests
end

section
/-! PROOFS, family 10_state. The frame of a command, the separation of the two kinds of holder, and the answers of
empty holders (spec/10_state.md R13, R16, R24). -/

namespace Sys2Proof.Machine

/-! ### The frame of a command (R16) -/

/-- `exec_effect`, for an outcome already at hand. -/
theorem effect_of_exec {i : Instr} {s t : State} (h : exec i s = .next t) : Effect i s t := by
  obtain ⟨u, hu, he⟩ := exec_effect i s
  cases h.symm.trans hu
  exact he

/-! ### What a command reads (R13)

Both halves of R13 are one statement about two states that agree on some kinds of holder: the bit vectors if `B`, the
counting vectors if `C`. A command whose target is of a kind they agree on answers the same in both. -/

/-- Two states with the same parameters, the same bit vectors if `B`, and the same counting vectors if `C`. -/
structure AgreeOn (B C : Prop) (s s' : State) : Prop where
  params : s'.params = s.params
  bv : B → ∀ v, s'.mem.bv v = s.mem.bv v
  cv : C → ∀ c, s'.mem.cv c = s.mem.cv c

/-- Two outcomes that are next states with the same response, and that agree on the same kinds of holder. -/
def SameAnswerOn (B C : Prop) (o o' : Host.Outcome State Fault Refusal) : Prop :=
  ∃ t t', o = .next t ∧ o' = .next t' ∧ t'.rsp = t.rsp ∧ AgreeOn B C t t'

section
variable {B C : Prop} {s s' : State} {o o' : Host.Outcome State Fault Refusal}

theorem AgreeOn.present (h : AgreeOn B C s s') (r : Response) : AgreeOn B C (s.present r) (s'.present r) :=
  ⟨h.params, h.bv, h.cv⟩

theorem AgreeOn.setBv (h : AgreeOn B C s s') (v : BvSel) (ws : List Word) :
    AgreeOn B C (s.setBv v ws) (s'.setBv v ws) where
  params := h.params
  bv hB w := by
    by_cases hw : w = v
    · simp [hw]
    · simp [hw, h.bv hB]
  cv hC c := by simp [h.cv hC]

theorem AgreeOn.setCv (h : AgreeOn B C s s') (c : CvSel) (ws : List Word) :
    AgreeOn B C (s.setCv c ws) (s'.setCv c ws) where
  params := h.params
  bv hB v := by simp [h.bv hB]
  cv hC d := by
    by_cases hd : d = c
    · simp [hd]
    · simp [hd, h.cv hC]

theorem AgreeOn.update (h : AgreeOn B C s s') (hC : C) (c : CvSel) (i : Nat) (f : Word → Candidate) :
    AgreeOn B C (update c i f s).1 (update c i f s').1 ∧ (update c i f s').2 = (update c i f s).2 := by
  have e := h.cv hC c
  cases hf : f (memRead (s.mem.cv c) i) with
  | replace y =>
    rw [update_of_replace hf, update_of_replace (e ▸ hf), e]
    exact ⟨h.setCv c _, rfl⟩
  | unchanged =>
    rw [update_of_unchanged hf, update_of_unchanged (e ▸ hf)]
    exact ⟨h, rfl⟩

theorem sameAnswerOn_respond (h : AgreeOn B C s s') (d : Word) : SameAnswerOn B C (respond d s) (respond d s') :=
  ⟨_, _, rfl, rfl, rfl, h.present _⟩

theorem sameAnswerOn_raise (h : AgreeOn B C s s') (e : Error) : SameAnswerOn B C (raise e s) (raise e s') :=
  ⟨_, _, rfl, rfl, rfl, h.present _⟩

theorem sameAnswerOn_withIndex (h : AgreeOn B C s s') (ho : SameAnswerOn B C o o') (k limit : Nat) :
    SameAnswerOn B C (withIndex k limit s o) (withIndex k limit s' o') := by
  rcases Nat.lt_or_ge k limit with hk | hk
  · simpa only [withIndex_of_lt hk] using ho
  · simpa only [withIndex_of_le hk] using sameAnswerOn_raise h _

theorem sameAnswerOn_withCapacity (h : AgreeOn B C s s') (ho : SameAnswerOn B C o o') (n capacity : Nat) :
    SameAnswerOn B C (withCapacity n capacity s o) (withCapacity n capacity s' o') := by
  rcases Nat.lt_or_ge capacity n with hn | hn
  · simpa only [withCapacity_of_lt hn] using sameAnswerOn_raise h _
  · simpa only [withCapacity_of_le hn] using ho

theorem sameAnswerOn_execBoolean (h : AgreeOn B C s s') (hB : B) (f : Word → Word → Word) (rd ra rb : BvSel) :
    SameAnswerOn B C (execBoolean f rd ra rb s) (execBoolean f rd ra rb s') := by
  unfold execBoolean
  rw [h.bv hB ra, h.bv hB rb]
  split
  · exact sameAnswerOn_respond (h.setBv rd _) _
  · exact sameAnswerOn_raise h _

theorem sameAnswerOn_execCounter (h : AgreeOn B C s s') (hC : C) (f : Nat → Word → Candidate) (rd : CvSel) (k : Nat) :
    SameAnswerOn B C (execCounter f rd k s) (execCounter f rd k s') := by
  obtain ⟨hu, hcommitted⟩ := h.update hC rd (counterSlot k) (f (nibblePos k))
  unfold execCounter
  rw [h.cv hC rd, hcommitted]
  exact sameAnswerOn_withIndex h (sameAnswerOn_respond hu _) _ _

theorem sameAnswerOn_execSlotsClear (h : AgreeOn B C s s') (hC : C) (rd : CvSel) :
    SameAnswerOn B C (execSlotsClear rd s) (execSlotsClear rd s') := by
  unfold execSlotsClear
  rw [h.cv hC rd]
  exact sameAnswerOn_respond (h.setCv rd _) _

/-- A command reads holders of its target's kind only, and what it writes there depends on nothing else. -/
theorem exec_sameAnswerOn (h : AgreeOn B C s s') {i : Instr} (hB : ∀ v, target i = some (.inl v) → B)
    (hC : ∀ c, target i = some (.inr c) → C) : SameAnswerOn B C (exec i s) (exec i s') := by
  cases i with
  | nop => exact sameAnswerOn_respond h _
  | bvNew rd n | bvFromElem rd n =>
    simp only [exec, execBvNew, execBvFromElem, h.params]
    exact sameAnswerOn_withCapacity h (sameAnswerOn_respond (h.setBv rd _) _) _ _
  | bvSet rd k | bvWrw rd k =>
    simp only [exec, execBvSet, execBvWrw, h.bv (hB rd rfl)]
    exact sameAnswerOn_withIndex h (sameAnswerOn_respond (h.setBv rd _) _) _ _
  | bvGet rd k | bvRdw rd k =>
    simp only [exec, execBvGet, execBvRdw, h.bv (hB rd rfl)]
    exact sameAnswerOn_withIndex h (sameAnswerOn_respond h _) _ _
  | bvClear rd =>
    simp only [exec, execBvClear, h.bv (hB rd rfl)]
    exact sameAnswerOn_respond (h.setBv rd _) _
  | bvIsEmpty rd | bvLen rd =>
    simp only [exec, execBvIsEmpty, execBvLen, h.bv (hB rd rfl)]
    exact sameAnswerOn_respond h _
  | bvOr rd ra rb | bvAnd rd ra rb | bvXor rd ra rb | bvNand rd ra rb | bvNor rd ra rb | bvXnor rd ra rb
  | bvDifference rd ra rb => exact sameAnswerOn_execBoolean h (hB rd rfl) _ rd ra rb
  | ssNew rd n =>
    simp only [exec, execSsNew, h.params]
    exact sameAnswerOn_withCapacity h (sameAnswerOn_respond (h.setCv rd _) _) _ _
  | ssWr rd k x =>
    simp only [exec, execSsWr, h.cv (hC rd rfl)]
    exact sameAnswerOn_withIndex h (sameAnswerOn_respond (h.setCv rd _) _) _ _
  | ssGet rd k | cvGet rd k =>
    simp only [exec, execSsGet, execCvGet, h.cv (hC rd rfl)]
    exact sameAnswerOn_withIndex h (sameAnswerOn_respond h _) _ _
  | ssSlotCount rd | cvCounterCount rd =>
    simp only [exec, execSsSlotCount, execCvCounterCount, h.cv (hC rd rfl)]
    exact sameAnswerOn_respond h _
  | ssClear rd | cvClear rd => exact sameAnswerOn_execSlotsClear h (hC rd rfl) rd
  | cvIncrement rd k | cvDecrement rd k => exact sameAnswerOn_execCounter h (hC rd rfl) _ rd k

/-- `exec_sameAnswerOn`, for outcomes already at hand. -/
theorem sameAnswer_of_exec (h : AgreeOn B C s s') {i : Instr} (hB : ∀ v, target i = some (.inl v) → B)
    (hC : ∀ c, target i = some (.inr c) → C) {t t' : State} (ht : exec i s = .next t) (ht' : exec i s' = .next t') :
    t'.rsp = t.rsp ∧ AgreeOn B C t t' := by
  obtain ⟨u, u', hu, hu', hans⟩ := exec_sameAnswerOn h hB hC
  cases ht.symm.trans hu
  cases ht'.symm.trans hu'
  exact hans

end

/-! ### Empty holders (R24) -/

@[simp] theorem State.reset_mem : State.reset.mem = .empty := rfl

/-- A command that responds and writes no holder completes. -/
theorem completes_of_respond {i : Instr} {s : State} {d : Word} (h : exec i s = respond d s) :
    Completes i s d (s.present (.ok d)) :=
  ⟨h, rfl, rfl, rfl, rfl⟩

/-- A command whose range check does not pass fails with IndexOutOfRange (R162). -/
theorem fails_of_withIndex {i : Instr} {s : State} {k limit : Nat} {go : Host.Outcome State Fault Refusal}
    (h : exec i s = withIndex k limit s go) (hk : limit ≤ k) : Fails i s .indexOutOfRange :=
  h.trans (withIndex_of_le hk s go)

/-- Every index is out of range in an empty bit vector. -/
theorem fails_of_bv_empty {s : State} {v : BvSel} (h : s.mem.bv v = []) (k : Nat) (x : Word) :
    ∀ i ∈ [Instr.bvSet v k, .bvGet v k, .bvRdw v k, .bvWrw v k x], Fails i s .indexOutOfRange := by
  have hbits : totalBits (s.mem.bv v) ≤ k := by simp [h, totalBits]
  have hwords : (s.mem.bv v).length ≤ k := by simp [h]
  simp only [List.forall_mem_cons]
  exact ⟨fails_of_withIndex rfl hbits, fails_of_withIndex rfl hbits, fails_of_withIndex rfl hwords,
    fails_of_withIndex rfl hwords, by simp⟩

/-- Every index is out of range in an empty counting vector. -/
theorem fails_of_cv_empty {s : State} {c : CvSel} (h : s.mem.cv c = []) (k : Nat) (x : Word) :
    ∀ i ∈ [Instr.ssGet c k, .ssWr c k x, .cvGet c k, .cvIncrement c k, .cvDecrement c k],
      Fails i s .indexOutOfRange := by
  have hslots : (s.mem.cv c).length ≤ k := by simp [h]
  have hcounters : counterCount (s.mem.cv c) ≤ k := by simp [h, counterCount]
  simp only [List.forall_mem_cons]
  exact ⟨fails_of_withIndex rfl hslots, fails_of_withIndex rfl hslots, fails_of_withIndex rfl hcounters,
    fails_of_withIndex rfl hcounters, fails_of_withIndex rfl hcounters, by simp⟩

theorem completes_bvIsEmpty_of_empty {s : State} {v : BvSel} (h : s.mem.bv v = []) :
    Completes (.bvIsEmpty v) s 1 (s.present (.ok 1)) :=
  completes_of_respond (by simp [exec, execBvIsEmpty, h, boolData])

theorem completes_bvLen_of_empty {s : State} {v : BvSel} (h : s.mem.bv v = []) :
    Completes (.bvLen v) s 0 (s.present (.ok 0)) :=
  completes_of_respond (by simp [exec, execBvLen, h, countData])

theorem completes_ssSlotCount_of_empty {s : State} {c : CvSel} (h : s.mem.cv c = []) :
    Completes (.ssSlotCount c) s 0 (s.present (.ok 0)) :=
  completes_of_respond (by simp [exec, execSsSlotCount, h, countData])

theorem completes_cvCounterCount_of_empty {s : State} {c : CvSel} (h : s.mem.cv c = []) :
    Completes (.cvCounterCount c) s 0 (s.present (.ok 0)) :=
  completes_of_respond (by simp [exec, execCvCounterCount, h, counterCount, countData])

/-! ### The obligations -/

/-- Settles O40: the frame is part of the effect every command has. -/
theorem commandsChangeAtMostTheirTarget : Obligations.CommandsChangeAtMostTheirTarget := by
  intro i s t h
  have he := effect_of_exec h
  exact ⟨he.host, he.bvFrame, he.cvFrame⟩

/-- Settles O41: not read, by states that agree on one kind of holder only; not written, by the command's frame. -/
theorem kindsOfHolderAreSeparate : Obligations.KindsOfHolderAreSeparate := by
  intro i s s' t t' hp ht ht'
  have he := effect_of_exec ht
  constructor
  · intro hi hbv
    have hagree : AgreeOn True False s s' := ⟨hp, fun _ => hbv, False.elim⟩
    obtain ⟨hrsp, ha⟩ := sameAnswer_of_exec hagree (fun _ _ => trivial) hi ht ht'
    exact ⟨hrsp, ha.bv trivial, fun c => he.cvFrame c (hi c)⟩
  · intro hi hcv
    have hagree : AgreeOn False True s s' := ⟨hp, False.elim, fun _ => hcv⟩
    obtain ⟨hrsp, ha⟩ := sameAnswer_of_exec hagree hi (fun _ _ => trivial) ht ht'
    exact ⟨hrsp, ha.cv trivial, fun v => he.bvFrame v (hi v)⟩

/-- Settles O52: the reset holders are empty, an empty holder counts 0, and no index is below 0. -/
theorem resetStateAnswers : Obligations.ResetStateAnswers := by
  refine ⟨rfl, by simp, by simp, fun s hs v c k x => ?_⟩
  have hv : s.mem.bv v = [] := by simp [hs]
  have hc : s.mem.cv c = [] := by simp [hs]
  exact ⟨⟨_, completes_bvIsEmpty_of_empty hv⟩, ⟨_, completes_bvLen_of_empty hv⟩,
    ⟨_, completes_ssSlotCount_of_empty hc⟩, ⟨_, completes_cvCounterCount_of_empty hc⟩,
    List.forall_mem_append.mpr ⟨fails_of_bv_empty hv k x, fails_of_cv_empty hc k x⟩⟩

end Sys2Proof.Machine
end

section
/-! PROOFS, family 20_memory. Repeating a command: reads, the idempotent writes, and the counter commands, which are
not idempotent (spec/20_memory.md R37). -/

namespace Sys2Proof.Machine

/-! ### The memory a command leaves

A command leaves the memory alone (its check failed) or applies one function of the memory to it. That function is the
identity for a read; for an idempotent write, and for `bv.or v, v, w`, it is idempotent. -/

/-- The command leaves the memory alone or applies `f` to it. -/
def MayApply (i : Instr) (f : Memory → Memory) : Prop :=
  ∀ s t : State, exec i s = .next t → t.mem = s.mem ∨ t.mem = f s.mem

/-- Doing `f` twice is doing it once. -/
def TwiceIsOnce {α : Type} (f : α → α) : Prop := ∀ a, f (f a) = f a

/-- `BV[v]` rewritten by a function of its own words. -/
def Memory.mapBv (v : BvSel) (g : List Word → List Word) (m : Memory) : Memory := m.setBv v (g (m.bv v))

/-- `CV[c]` rewritten by a function of its own slots. -/
def Memory.mapCv (c : CvSel) (g : List Word → List Word) (m : Memory) : Memory := m.setCv c (g (m.cv c))

theorem Memory.twiceIsOnce_mapBv {g : List Word → List Word} (hg : TwiceIsOnce g) (v : BvSel) :
    TwiceIsOnce (Memory.mapBv v g) := by
  intro m
  simp [Memory.mapBv, hg (m.bv v)]

theorem Memory.twiceIsOnce_mapCv {g : List Word → List Word} (hg : TwiceIsOnce g) (c : CvSel) :
    TwiceIsOnce (Memory.mapCv c g) := by
  intro m
  simp [Memory.mapCv, hg (m.cv c)]

section
variable {s w t : State} {d : Word}

theorem mem_of_respond (h : respond d w = .next t) : t.mem = w.mem := by
  cases h
  rfl

theorem mem_of_raise {e : Error} (h : raise e s = .next t) : t.mem = s.mem := by
  cases h
  rfl

theorem mem_of_withIndex {k limit : Nat} (h : withIndex k limit s (respond d w) = .next t) :
    t.mem = s.mem ∨ t.mem = w.mem := by
  rcases Nat.lt_or_ge k limit with hk | hk
  · rw [withIndex_of_lt hk] at h
    exact .inr (mem_of_respond h)
  · rw [withIndex_of_le hk] at h
    exact .inl (mem_of_raise h)

theorem mem_of_withCapacity {n capacity : Nat} (h : withCapacity n capacity s (respond d w) = .next t) :
    t.mem = s.mem ∨ t.mem = w.mem := by
  rcases Nat.lt_or_ge capacity n with hn | hn
  · rw [withCapacity_of_lt hn] at h
    exact .inl (mem_of_raise h)
  · rw [withCapacity_of_le hn] at h
    exact .inr (mem_of_respond h)

theorem mem_of_execBoolean {f : Word → Word → Word} {rd ra rb : BvSel} (h : execBoolean f rd ra rb s = .next t) :
    t.mem = s.mem ∨ t.mem = s.mem.setBv rd (combine f (s.mem.bv ra) (s.mem.bv rb)) := by
  by_cases hlen : (s.mem.bv ra).length = (s.mem.bv rb).length
  · rw [execBoolean_of_eq f rd hlen] at h
    exact .inr (mem_of_respond h)
  · rw [execBoolean_of_ne f rd hlen] at h
    exact .inl (mem_of_raise h)

end

/-! ### Doing a command twice -/

/-- A command that left the holders alone gives the same answer again: it depends on nothing it has changed. -/
theorem exec_again_of_sameHolders {i : Instr} {s t : State} (h : exec i s = .next t) (hm : SameHolders s t) :
    exec i t = .next t := by
  obtain ⟨hparams, -, -⟩ := (effect_of_exec h).host
  exact exec_congr hm hparams i h

/-- A command that applies an idempotent function, when it applies any, leaves the holders alone the second time. -/
theorem exec_again_of_twiceIsOnce {i : Instr} {f : Memory → Memory} (hi : MayApply i f) (hf : TwiceIsOnce f)
    {s t : State} (h : exec i s = .next t) : ∃ u, exec i t = .next u ∧ SameHolders t u := by
  rcases hi s t h with hsame | hnew
  · exact ⟨t, exec_again_of_sameHolders h hsame, rfl⟩
  · obtain ⟨u, hu, -⟩ := exec_effect i t
    refine ⟨u, hu, (hi t u hu).elim id fun hagain => ?_⟩
    calc u.mem = f (f s.mem) := by rw [hagain, hnew]
      _ = t.mem := by rw [hf, hnew]

/-! ### Reads -/

theorem sameHolders_of_readsOnly {i : Instr} (hi : readsOnly i = true) {s t : State} (h : exec i s = .next t) :
    SameHolders s t := by
  cases i with
  | nop | bvIsEmpty | bvLen | ssSlotCount | cvCounterCount => exact mem_of_respond h
  | bvGet | bvRdw | ssGet | cvGet => exact or_self_iff.mp (mem_of_withIndex h)
  | _ => cases hi

/-! ### Idempotent writes -/

/-- Rewriting one word by an idempotent function of that word; a constant function stores a fixed word. -/
theorem twiceIsOnce_memWrite {g : Word → Word} (hg : TwiceIsOnce g) (i : Nat) :
    TwiceIsOnce (fun ws => memWrite ws i (g (memRead ws i))) := by
  intro ws
  rcases Nat.lt_or_ge i ws.length with hi | hi
  · simp only [memRead_memWrite_same hi, hg (memRead ws i)]
    exact List.set_set ..
  · have hnone : ∀ x, memWrite ws i x = ws := fun _ => List.set_eq_of_length_le hi
    simp only [hnone]

theorem twiceIsOnce_zeroed : TwiceIsOnce zeroed := fun ws => by simp [zeroed]

/-- Setting bits that are set already changes nothing. -/
theorem twiceIsOnce_or (b : Word) : TwiceIsOnce (· ||| b) := fun a => by simp [BitVec.or_assoc]

theorem twiceIsOnce_const {α : Type} (a : α) : TwiceIsOnce (fun _ => a) := fun _ => rfl

/-- Each of the nine writes applies an idempotent function to the holder it names: a constant for the constructions, the
zeroing of every word for the clears, and a write of one word for the others. -/
theorem mayApply_of_idempotentWrite {i : Instr} (hi : idempotentWrite i = true) :
    ∃ f, TwiceIsOnce f ∧ MayApply i f := by
  cases i with
  | bvNew rd n =>
    exact ⟨_, Memory.twiceIsOnce_mapBv (twiceIsOnce_const (zeros n)) rd, fun _ _ h => mem_of_withCapacity h⟩
  | bvFromElem rd n bit =>
    exact ⟨_, Memory.twiceIsOnce_mapBv (twiceIsOnce_const (fill n (if bit then .ones else .zero))) rd,
      fun _ _ h => mem_of_withCapacity h⟩
  | ssNew rd n =>
    exact ⟨_, Memory.twiceIsOnce_mapCv (twiceIsOnce_const (zeros n)) rd, fun _ _ h => mem_of_withCapacity h⟩
  | bvClear rd =>
    exact ⟨_, Memory.twiceIsOnce_mapBv twiceIsOnce_zeroed rd, fun _ _ h => .inr (mem_of_respond h)⟩
  | ssClear rd | cvClear rd =>
    exact ⟨_, Memory.twiceIsOnce_mapCv twiceIsOnce_zeroed rd, fun _ _ h => .inr (mem_of_respond h)⟩
  | bvSet rd k =>
    exact ⟨_, Memory.twiceIsOnce_mapBv (twiceIsOnce_memWrite (twiceIsOnce_or (bitMask k)) (bitWord k)) rd,
      fun _ _ h => mem_of_withIndex h⟩
  | bvWrw rd k x =>
    exact ⟨_, Memory.twiceIsOnce_mapBv (twiceIsOnce_memWrite (twiceIsOnce_const x) k) rd,
      fun _ _ h => mem_of_withIndex h⟩
  | ssWr rd k x =>
    exact ⟨_, Memory.twiceIsOnce_mapCv (twiceIsOnce_memWrite (twiceIsOnce_const x) k) rd,
      fun _ _ h => mem_of_withIndex h⟩
  | _ => cases hi

/-! ### `bv.or v, v, w` -/

theorem combine_wordOr_self (a : List Word) : combine wordOr a a = a := by
  simp [combine, wordOr, List.zipWith_self]

theorem combine_wordOr_again (a b : List Word) : combine wordOr (combine wordOr a b) b = combine wordOr a b := by
  induction a generalizing b with
  | nil => rfl
  | cons x a ih =>
    cases b with
    | nil => rfl
    | cons y b => simpa [combine, wordOr, BitVec.or_assoc] using ih b

/-- `BV[v]` with `BV[w]` or-ed into it. -/
def Memory.orInto (v w : BvSel) (m : Memory) : Memory := m.setBv v (combine wordOr (m.bv v) (m.bv w))

theorem Memory.twiceIsOnce_orInto (v w : BvSel) : TwiceIsOnce (Memory.orInto v w) := by
  intro m
  by_cases hw : w = v
  · simp [Memory.orInto, hw, combine_wordOr_self]
  · simp [Memory.orInto, hw, combine_wordOr_again]

theorem mayApply_bvOr (v w : BvSel) : MayApply (.bvOr v v w) (Memory.orInto v w) :=
  fun _ _ h => mem_of_execBoolean h

/-! ### Counter commands -/

/-- The model's counter k is the counter of R125. -/
theorem counterAt_toNat (ws : List Word) (k : Nat) : (counterAt ws k).toNat = ctrVal ws k := nibbleAt_toNat _ _

/-- Counter k of the holder `CV[c]` is addressable and has the value v. -/
def HasCounter (c : CvSel) (k : Nat) (v : Nibble) (s : State) : Prop :=
  k < counterCount (s.mem.cv c) ∧ counterAt (s.mem.cv c) k = v

/-- The counter command `i` takes the counter k it names from the value v to the value v'. -/
def MovesCounter (i : Instr) (c : CvSel) (k : Nat) (v v' : Nibble) : Prop :=
  ∀ s, HasCounter c k v s → ∃ t, exec i s = .next t ∧ HasCounter c k v' t

/-- A counter command whose transform replaces the nibble leaves the new value in the counter. -/
theorem execCounter_hasCounter {f : Nat → Word → Candidate} {c : CvSel} {k : Nat} {s : State} {v : Nibble}
    (hk : k < counterCount (s.mem.cv c))
    (hf : f (nibblePos k) (memRead (s.mem.cv c) (counterSlot k)) =
      .replace (withNibble (nibblePos k) v (memRead (s.mem.cv c) (counterSlot k)))) :
    ∃ t, execCounter f c k s = .next t ∧ HasCounter c k v t := by
  have hslot : counterSlot k < (s.mem.cv c).length := Nat.div_lt_of_lt_mul (Nat.mul_comm .. ▸ hk)
  unfold execCounter
  rw [withIndex_of_lt hk, update_of_replace hf]
  refine ⟨_, rfl, by simpa [counterCount] using hk, ?_⟩
  simp [counterAt, memRead_memWrite_same hslot, nibbleAt_withNibble_same]

theorem movesCounter_cvIncrement (c : CvSel) (k : Nat) {v : Nibble} (hv : v ≠ 15#4) :
    MovesCounter (.cvIncrement c k) c k v (v + 1#4) := by
  rintro s ⟨hk, rfl⟩
  exact execCounter_hasCounter hk (incT_of_not_max hv)

theorem movesCounter_cvDecrement (c : CvSel) (k : Nat) {v : Nibble} (hv : v ≠ 0#4) :
    MovesCounter (.cvDecrement c k) c k v (v - 1#4) := by
  rintro s ⟨hk, rfl⟩
  exact execCounter_hasCounter hk (decT_of_not_zero hv)

/-- Done twice, a command that moves its counter twice has not left the holders as done once. -/
theorem exec_again_of_movesCounter {i : Instr} {c : CvSel} {k : Nat} {v₀ v₁ v₂ : Nibble}
    (h₁ : MovesCounter i c k v₀ v₁) (h₂ : MovesCounter i c k v₁ v₂) (hne : v₂ ≠ v₁) {s : State}
    (hs : HasCounter c k v₀ s) : ∃ t u, exec i s = .next t ∧ exec i t = .next u ∧ ¬ SameHolders t u := by
  obtain ⟨t, ht, hct⟩ := h₁ s hs
  obtain ⟨u, hu, -, hvu⟩ := h₂ t hct
  refine ⟨t, u, ht, hu, fun hsame => hne ?_⟩
  have hmem : u.mem = t.mem := hsame
  rw [← hvu, hmem, hct.2]

theorem nibble_below_14 : ∀ v : Nibble, v.toNat < 14 → v ≠ 15#4 ∧ v + 1#4 ≠ 15#4 ∧ v + 1#4 + 1#4 ≠ v + 1#4 := by
  decide

theorem nibble_above_1 : ∀ v : Nibble, 1 < v.toNat → v ≠ 0#4 ∧ v - 1#4 ≠ 0#4 ∧ v - 1#4 - 1#4 ≠ v - 1#4 := by
  decide

theorem cvIncrement_not_idempotent {s : State} {c : CvSel} {k : Nat} (hk : k < (s.mem.cv c).length * 16)
    (hv : ctrVal (s.mem.cv c) k < 14) : ∃ t u, exec (.cvIncrement c k) s = .next t ∧
      exec (.cvIncrement c k) t = .next u ∧ ¬ SameHolders t u := by
  rw [← counterAt_toNat] at hv
  obtain ⟨h₀, h₁, hne⟩ := nibble_below_14 _ hv
  exact exec_again_of_movesCounter (movesCounter_cvIncrement c k h₀) (movesCounter_cvIncrement c k h₁) hne ⟨hk, rfl⟩

theorem cvDecrement_not_idempotent {s : State} {c : CvSel} {k : Nat} (hk : k < (s.mem.cv c).length * 16)
    (hv : 1 < ctrVal (s.mem.cv c) k) : ∃ t u, exec (.cvDecrement c k) s = .next t ∧
      exec (.cvDecrement c k) t = .next u ∧ ¬ SameHolders t u := by
  rw [← counterAt_toNat] at hv
  obtain ⟨h₀, h₁, hne⟩ := nibble_above_1 _ hv
  exact exec_again_of_movesCounter (movesCounter_cvDecrement c k h₀) (movesCounter_cvDecrement c k h₁) hne ⟨hk, rfl⟩

/-! ### `bv.xor v, v, w` -/

/-- A bit is flipped, and flipped back. -/
theorem bvXor_not_idempotent : ∃ s t u : State, exec (.bvXor .v0 .v0 .v1) s = .next t ∧
    exec (.bvXor .v0 .v0 .v1) t = .next u ∧ ¬ SameHolders t u :=
  ⟨{ State.reset with mem := { Memory.empty with bv0 := [0], bv1 := [1] } }, _, _, rfl, rfl,
    by unfold SameHolders; decide⟩

/-! ### The obligation -/

/-- Settles O38: a read applies no function to the memory and a listed write an idempotent one; a counter command away
from its bound moves the counter each time, and `bv.xor` undoes itself. -/
theorem readsHaveNoSideEffect : Obligations.ReadsHaveNoSideEffect := by
  refine ⟨fun i s t hi h => ?_, fun i s t hi h => ?_, fun s t v w h => ?_, fun s c k hk => ⟨?_, ?_⟩,
    bvXor_not_idempotent⟩
  · have hsame := sameHolders_of_readsOnly hi h
    exact ⟨hsame, (effect_of_exec h).host, t, exec_again_of_sameHolders h hsame, rfl, hsame⟩
  · obtain ⟨f, hf, happly⟩ := mayApply_of_idempotentWrite hi
    exact exec_again_of_twiceIsOnce happly hf h
  · exact exec_again_of_twiceIsOnce (mayApply_bvOr v w) (Memory.twiceIsOnce_orInto v w) h
  · exact cvIncrement_not_idempotent hk
  · exact cvDecrement_not_idempotent hk

end Sys2Proof.Machine
end

section
/-! PROOFS, family 30_encoding. The legal control words by the values of their fields, where the write-data word goes,
and the pseudo-commands (spec/30_encoding.md R53, R56, R60, R64). -/

namespace Sys2Proof

/-! ### What a format's mask allows, as numbers (R52, R53, R56) -/

theorem and_0xC_eq_zero_iff : ∀ f : BitVec 4, f &&& 0xC = 0 ↔ f.toNat < 4 := by decide

theorem and_0xE_eq_zero_iff : ∀ f : BitVec 4, f &&& 0xE = 0 ↔ f.toNat < 2 := by decide

theorem and_allOnes_eq_zero_iff {n : Nat} (f : BitVec n) : f &&& BitVec.allOnes n = 0 ↔ f.toNat = 0 := by
  rw [BitVec.and_allOnes]
  exact BitVec.toNat_inj.symm

/-- The values a format leaves to the fields `rd`, `ra`, `rb`, `fn` and `imm`. -/
def Format.InRange (fmt : Format) (rd ra rb fn imm : Nat) : Prop :=
  match fmt with
  | .z => rd = 0 ∧ ra = 0 ∧ rb = 0 ∧ fn = 0 ∧ imm = 0
  | .bt => rd < 4 ∧ ra = 0 ∧ rb = 0 ∧ fn = 0 ∧ imm = 0
  | .bti => rd < 4 ∧ ra = 0 ∧ rb = 0 ∧ fn = 0
  | .btif => rd < 4 ∧ ra = 0 ∧ rb = 0 ∧ fn < 2
  | .br3 => rd < 4 ∧ ra < 4 ∧ rb < 4 ∧ fn = 0 ∧ imm = 0
  | .ct => rd < 2 ∧ ra = 0 ∧ rb = 0 ∧ fn = 0 ∧ imm = 0
  | .cti => rd < 2 ∧ ra = 0 ∧ rb = 0 ∧ fn = 0

/-- A row accepts a control word iff the opcode is the row's, `rsv` is 0 and the other fields are in the ranges of the
row's format. -/
theorem Row.accepts_iff_inRange (r : Row) (f : Fields) :
    r.accepts f.toWord = true ↔
      f.op = r.op ∧ f.rsv.toNat = 0 ∧ r.fmt.InRange f.rd.toNat f.ra.toNat f.rb.toNat f.fn.toNat f.imm.toNat := by
  have h4 : ∀ g : BitVec 4, g &&& 0xF = 0 ↔ g.toNat = 0 := and_allOnes_eq_zero_iff
  have hrsv : f.rsv &&& 0xFF = 0 ↔ f.rsv.toNat = 0 := and_allOnes_eq_zero_iff f.rsv
  have himm : f.imm &&& 0xFFFFFFFF = 0 ↔ f.imm.toNat = 0 := and_allOnes_eq_zero_iff f.imm
  have hfree : f.imm &&& 0 = 0 := BitVec.and_zero
  rw [Row.accepts_iff, Fields.ofWord_toWord]
  generalize r.fmt = fmt
  cases fmt <;>
    simp only [Format.maskFields, Format.InRange, and_0xC_eq_zero_iff, and_0xE_eq_zero_iff, h4, hrsv, himm, hfree] <;>
    tauto

/-- The opcodes of the map's rows of a format (R54). -/
def Format.opcodes (fmt : Format) : List Nat := (opcodeMap.filter (·.fmt = fmt)).map (·.op.toNat)

theorem Format.opcodes_z : Format.z.opcodes = [0x00] := rfl
theorem Format.opcodes_bt : Format.bt.opcodes = [0x14, 0x15, 0x16] := rfl
theorem Format.opcodes_bti : Format.bti.opcodes = [0x10, 0x12, 0x13, 0x17, 0x18] := rfl
theorem Format.opcodes_btif : Format.btif.opcodes = [0x11] := rfl
theorem Format.opcodes_br3 : Format.br3.opcodes = [0x20, 0x21, 0x22, 0x23, 0x24, 0x25, 0x26] := rfl
theorem Format.opcodes_ct : Format.ct.opcodes = [0x32, 0x33, 0x40, 0x44] := rfl
theorem Format.opcodes_cti : Format.cti.opcodes = [0x30, 0x31, 0x34, 0x41, 0x42, 0x43] := rfl

theorem exists_row_iff_exists_format {op : BitVec 8} {P : Format → Prop} :
    (∃ r ∈ opcodeMap, op = r.op ∧ P r.fmt) ↔ ∃ fmt : Format, op.toNat ∈ fmt.opcodes ∧ P fmt := by
  simp only [Format.opcodes, List.mem_map, List.mem_filter, decide_eq_true_eq, BitVec.toNat_inj]
  constructor
  · rintro ⟨r, hr, rfl, hP⟩
    exact ⟨r.fmt, ⟨r, ⟨hr, rfl⟩, rfl⟩, hP⟩
  · rintro ⟨_, ⟨r, ⟨hr, rfl⟩, rfl⟩, hP⟩
    exact ⟨r, hr, rfl, hP⟩

theorem Format.exists_iff {P : Format → Prop} :
    (∃ fmt, P fmt) ↔ P .z ∨ P .btif ∨ P .bti ∨ P .bt ∨ P .br3 ∨ P .cti ∨ P .ct := by
  constructor
  · rintro ⟨fmt, h⟩
    cases fmt <;> simp [h]
  · rintro (h | h | h | h | h | h | h) <;> exact ⟨_, h⟩

/-! ### The legal control words (R56) -/

theorem decode_instr?_ne_none (c : Command) : (decode c).instr? ≠ none ↔ ∃ r ∈ opcodeMap, r.accepts c.cw = true := by
  simp [decode_instr?_eq_none]

/-- A control word is legal iff `rsv` is 0 and its fields are those of a format of the map. -/
theorem decode_toWord_instr?_ne_none (f : Fields) (wd : Word) :
    (decode ⟨f.toWord, wd⟩).instr? ≠ none ↔
      f.rsv.toNat = 0 ∧ ∃ fmt : Format, f.op.toNat ∈ fmt.opcodes ∧
        fmt.InRange f.rd.toNat f.ra.toNat f.rb.toNat f.fn.toNat f.imm.toNat := by
  simp only [decode_instr?_ne_none, Row.accepts_iff_inRange, ← exists_row_iff_exists_format]
  constructor
  · rintro ⟨r, hr, hop, hrsv, hin⟩
    exact ⟨hrsv, r, hr, hop, hin⟩
  · rintro ⟨hrsv, r, hr, hop, hin⟩
    exact ⟨r, hr, hop, hrsv, hin⟩

/-- A number that fits a field is the field's value in some control word. -/
theorem exists_field {n m : Nat} (h : m < 2 ^ n) : ∃ x : BitVec n, x.toNat = m := ⟨BitVec.ofNatLT m h, rfl⟩

/-! ### The write-data word (R60) -/

/-- The command with another write-data word; for all but the two raw writes, the command itself. -/
def Instr.withWd (i : Instr) (x : Word) : Instr :=
  match i with
  | .bvWrw rd k _ => .bvWrw rd k x
  | .ssWr rd k _ => .ssWr rd k x
  | i => i

theorem Instr.withWd_of_not_usesWd {i : Instr} (h : i.usesWd = false) (x : Word) : i.withWd x = i := by
  cases i with
  | bvWrw | ssWr => cases h
  | _ => rfl

/-- No row does more with the write-data word than hand it on as the operand of a raw write. -/
theorem build_withWd : ∀ r ∈ opcodeMap, ∀ (f : Fields) (wd x : Word), (r.build f wd).withWd x = r.build f x := by
  simp [opcodeMap, systemRows, bitVectorRows, booleanRows, slotStorageRows, countingVectorRows, Instr.withWd]

/-- Decoding the same control word with other write data gives the same command with that write data. -/
theorem decode_withWd {cw wd : Word} {i : Instr} (h : decode ⟨cw, wd⟩ = .legal i) (x : Word) :
    decode ⟨cw, x⟩ = .legal (i.withWd x) := by
  obtain ⟨r, hr, ha, rfl⟩ := accepts_of_decode h
  rw [build_withWd r hr, decode_of_accepts (c := ⟨cw, x⟩) hr ha]

/-- Legality is of the control word alone. -/
theorem decode_instr?_eq_none_congr {cw wd : Word} (h : (decode ⟨cw, wd⟩).instr? = none) (x : Word) :
    (decode ⟨cw, x⟩).instr? = none := by
  rw [decode_instr?_eq_none] at h ⊢
  exact h

/-- The write-data operand of a decoded raw write is the command's write-data word. -/
theorem withWd_eq_self_of_decode {cw wd : Word} {i : Instr} (h : decode ⟨cw, wd⟩ = .legal i) : i.withWd wd = i := by
  simpa [h] using (decode_withWd h wd).symm

end Sys2Proof

namespace Sys2Proof.Machine

/-! ### Control words that are no command (R56) -/

theorem runCommand_of_instr?_eq_none {c : Command} (h : (decode c).instr? = none) (s : State) :
    runCommand c s = raise .illegalCommand s := by
  cases hd : decode c with
  | legal i => simp [hd, Decoded.instr?] at h
  | illegal why => exact runCommand_illegal hd s

/-! ### The raw writes (R148, R149) -/

theorem exec_bvWrw_of_lt {s : State} {rd : BvSel} {k : Nat} (hk : k < (s.mem.bv rd).length) (x : Word) :
    ∃ t, exec (.bvWrw rd k x) s = .next t ∧ memRead (t.mem.bv rd) k = x :=
  ⟨_, withIndex_of_lt hk _ _, by simp [memRead_memWrite_same hk]⟩

theorem exec_ssWr_of_lt {s : State} {rd : CvSel} {k : Nat} (hk : k < (s.mem.cv rd).length) (x : Word) :
    ∃ t, exec (.ssWr rd k x) s = .next t ∧ memRead (t.mem.cv rd) k = x :=
  ⟨_, withIndex_of_lt hk _ _, by simp [memRead_memWrite_same hk]⟩

/-! ### A boolean command with equal sources (R64, R90) -/

/-- With both sources the same holder the lengths agree, and each word is f of itself twice. -/
theorem execBoolean_self (f : Word → Word → Word) (rd ra : BvSel) (s : State) :
    execBoolean f rd ra ra s = respond .zero (s.setBv rd ((s.mem.bv ra).map fun x => f x x)) := by
  rw [execBoolean_of_eq f rd rfl, combine, List.zipWith_self]

/-- A command that responds after replacing one bit-vector holder completes, and only that holder changes. -/
theorem completes_of_respond_setBv {i : Instr} {s : State} {d : Word} {rd : BvSel} {ws : List Word}
    (h : exec i s = respond d (s.setBv rd ws)) : ∃ t, Completes i s d t ∧ OnlyBv rd s t ∧ t.mem.bv rd = ws :=
  ⟨_, ⟨h, rfl, rfl, rfl, rfl⟩, ⟨fun v hv => by simp [hv], fun c => by simp⟩, by simp⟩

/-- A boolean command with equal sources completes with the words that its word function's diagonal gives. -/
theorem completes_of_execBoolean_self {i : Instr} {s : State} {f : Word → Word → Word} {rd ra : BvSel}
    (h : exec i s = execBoolean f rd ra ra s) {g : Word → Word} (hg : ∀ x, f x x = g x) :
    ∃ t, Completes i s 0 t ∧ OnlyBv rd s t ∧ t.mem.bv rd = (s.mem.bv ra).map g := by
  rw [← funext hg]
  exact completes_of_respond_setBv (h.trans (execBoolean_self f rd ra s))

/-! ### The obligations -/

/-- Settles O13: each real command is boolean with equal sources, and `~(x & x)`, `x | x`, `x ^ x`, `~(x ^ x)` are
`~x`, `x`, ZERO, ONES. -/
theorem pseudoCommandsMeanTheirTable : Obligations.PseudoCommandsMeanTheirTable := by
  intro s vd va
  have hnand : ∀ x, wordNand x x = ~~~x := by simp [wordNand]
  have hor : ∀ x, wordOr x x = x := by simp [wordOr]
  have hxor : ∀ x, wordXor x x = 0#64 := by simp [wordXor]
  have hxnor : ∀ x, wordXnor x x = 0xFFFFFFFFFFFFFFFF#64 := by simp [wordXnor]
  refine ⟨rfl, rfl, rfl, rfl, completes_of_execBoolean_self rfl hnand, ?_, completes_of_execBoolean_self rfl hxor,
    completes_of_execBoolean_self rfl hxnor⟩
  simpa using completes_of_execBoolean_self (i := Pseudo.expand (.bvCopy vd va)) rfl hor

/-- Settles O35: a row's mask test is a range for each field, and the rows of one format differ in their opcode only. -/
theorem legalControlWordsByTheirFields : Obligations.LegalControlWordsByTheirFields := by
  intro op rd ra rb fn rsv imm wd hop hrd hra hrb hfn hrsv himm
  obtain ⟨op, rfl⟩ := exists_field (n := 8) hop
  obtain ⟨rd, rfl⟩ := exists_field (n := 4) hrd
  obtain ⟨ra, rfl⟩ := exists_field (n := 4) hra
  obtain ⟨rb, rfl⟩ := exists_field (n := 4) hrb
  obtain ⟨fn, rfl⟩ := exists_field (n := 4) hfn
  obtain ⟨rsv, rfl⟩ := exists_field (n := 8) hrsv
  obtain ⟨imm, rfl⟩ := exists_field himm
  refine ⟨_, Fields.toWord_toNat ⟨op, rd, ra, rb, fn, rsv, imm⟩, ?_, fun hnone s => ?_⟩
  · rw [decode_toWord_instr?_ne_none, Format.exists_iff]
    simp only [Format.InRange, Format.opcodes_z, Format.opcodes_bt, Format.opcodes_bti, Format.opcodes_btif,
      Format.opcodes_br3, Format.opcodes_ct, Format.opcodes_cti, List.mem_singleton]
  · exact ⟨_, runCommand_of_instr?_eq_none hnone s, rfl, rfl, rfl, rfl, rfl, rfl⟩

/-- Settles O43: decoding hands the write data to the raw writes and to nothing else. -/
theorem writeDataIsIgnoredElsewhere : Obligations.WriteDataIsIgnoredElsewhere := by
  refine ⟨fun cw wd wd' i h hwd => ?_, fun cw wd wd' h s => ?_, fun cw wd x rd k h s hk => ?_,
    fun cw wd x rd k h s hk => ?_⟩
  · have h' : decode ⟨cw, wd'⟩ = .legal i := Instr.withWd_of_not_usesWd hwd wd' ▸ decode_withWd h wd'
    exact ⟨h', fun s => by rw [runCommand_legal h, runCommand_legal h']⟩
  · rw [runCommand_of_instr?_eq_none h, runCommand_of_instr?_eq_none (decode_instr?_eq_none_congr h wd')]
  · obtain rfl : wd = x := by simpa [Instr.withWd] using withWd_eq_self_of_decode h
    simpa only [runCommand_legal h] using exec_bvWrw_of_lt hk wd
  · obtain rfl : wd = x := by simpa [Instr.withWd] using withWd_eq_self_of_decode h
    simpa only [runCommand_legal h] using exec_ssWr_of_lt hk wd

end Sys2Proof.Machine
end

section
/-! PROOFS, family 40_bit_vector. Construct, set, get, clear, is_empty and len: the control word of each command, the
bits of the words it leaves, and how it ends (spec/40_bit_vector.md R70 to R76, spec/44_host_access.md R146). -/

namespace Sys2Proof.Machine

/-! ### Control words written from their fields (R52, R54) -/

theorem bvNum_eq_toField_toNat (v : BvSel) : bvNum v = v.toField.toNat := by cases v <;> rfl

/-- Fields that fit their positions do not overlap, so their weighted sum is the control word made from them. -/
theorem cwFn_eq_toWord (op : BitVec 8) (rd : BvSel) (fn : BitVec 4) {imm : Nat} (h : imm < 2 ^ 32) :
    cwFn op.toNat (bvNum rd) fn.toNat imm =
      Fields.toWord ⟨op, rd.toField, 0, 0, fn, 0, BitVec.ofNat 32 imm⟩ := by
  apply BitVec.eq_of_toNat_eq
  rw [Fields.toWord_toNat, cwFn, bvNum_eq_toField_toNat, BitVec.toNat_ofNat, BitVec.toNat_ofNat,
    Nat.mod_eq_of_lt h]
  have hop := op.isLt
  have hrd := rd.toField.isLt
  have hfn := fn.isLt
  simp only [BitVec.ofNat_eq_ofNat, BitVec.toNat_zero]
  omega

theorem cwFn_eq_wordBtif (op : BitVec 8) (rd : BvSel) (bit : Bool) {n : Nat} (h : n < 2 ^ 32) :
    cwFn op.toNat (bvNum rd) bit.toNat n = wordBtif op rd n bit := by
  have hbit : ((BitVec.ofBool bit).setWidth 4).toNat = bit.toNat := by cases bit <;> rfl
  rw [← hbit]
  exact cwFn_eq_toWord op rd _ h

theorem cwImm_eq_wordBti (op : BitVec 8) (rd : BvSel) {n : Nat} (h : n < 2 ^ 32) :
    cwImm op.toNat (bvNum rd) n = wordBti op rd n := by
  have hfn : cwImm op.toNat (bvNum rd) n = cwFn op.toNat (bvNum rd) (0 : BitVec 4).toNat n := by simp [cwImm, cwFn]
  rw [hfn]
  exact cwFn_eq_toWord op rd 0 h

/-- The control word of a well-formed command other than a raw write decodes to it, whatever the write data. -/
theorem decode_encodeWord {i : Instr} (hrow : Laws.EncodesToItsRow.Statement i) (hwf : i.wellFormed = true)
    (hwd : i.usesWd = false) (wd : Word) : decode ⟨encodeWord i, wd⟩ = .legal i := by
  obtain ⟨r, hr, ha, hb⟩ := hrow hwf
  have h : decode (encode i) = .legal i := (decode_of_accepts hr ha).trans (congrArg _ hb)
  simpa only [Instr.withWd_of_not_usesWd hwd] using decode_withWd h wd

/-- A command whose word has format BTI decodes from the opcode, `rd` and `imm` alone. -/
theorem decode_cwImm {i : Instr} (op : BitVec 8) {rd : BvSel} {n : Nat} (hcw : encodeWord i = wordBti op rd n)
    (hrow : Laws.EncodesToItsRow.Statement i) (hwf : i.wellFormed = true) (hwd : i.usesWd = false) (wd : Word)
    (hn : n < 2 ^ 32) : decode ⟨cwImm op.toNat (bvNum rd) n, wd⟩ = .legal i := by
  rw [cwImm_eq_wordBti op rd hn, ← hcw]
  exact decode_encodeWord hrow hwf hwd wd

/-! ### Bits of a bit vector (R31) -/

theorem bitVal_eq_bitAt (ws : List Word) (k : Nat) : bitVal ws k = bitAt ws k := (bitAt_eq_testBit ws k).symm

/-- A bit is the bit of the word that holds it. -/
theorem bitVal_eq_getLsbD (ws : List Word) (k : Nat) : bitVal ws k = (memRead ws (k / 64)).getLsbD (k % 64) :=
  BitVec.testBit_toNat _

@[simp] theorem bitVal_zeros (n k : Nat) : bitVal (zeros n) k = false := by simp [bitVal]

/-- The word with every bit equal to `bit`. -/
def fillWord (bit : Bool) : Word := if bit then .ones else .zero

theorem fillWord_getLsbD (bit : Bool) {b : Nat} (h : b < 64) : (fillWord bit).getLsbD b = bit := by
  cases bit with
  | false => simp [fillWord]
  | true =>
    have hones : fillWord true = BitVec.allOnes 64 := rfl
    rw [hones, BitVec.getLsbD_allOnes, decide_eq_true h]

theorem bitVal_fill_fillWord {n k : Nat} (bit : Bool) (h : k < n * 64) : bitVal (fill n (fillWord bit)) k = bit := by
  have hword : k / 64 < n := by omega
  rw [bitVal_eq_getLsbD, memRead_fill hword, fillWord_getLsbD bit (Nat.mod_lt k (by decide))]

/-! ### Setting one bit (R72) -/

/-- The words with bit k set, as `bv.set` writes them. -/
def withBit (ws : List Word) (k : Nat) : List Word := memWrite ws (k / 64) (memRead ws (k / 64) ||| bitMask k)

@[simp] theorem withBit_length (ws : List Word) (k : Nat) : (withBit ws k).length = ws.length := memWrite_length ..

theorem memRead_withBit_same {ws : List Word} {k : Nat} (h : k < ws.length * 64) :
    memRead (withBit ws k) (k / 64) = memRead ws (k / 64) ||| bitMask k :=
  memRead_memWrite_same (by omega) _

theorem memRead_withBit_ne (ws : List Word) {k i : Nat} (h : i ≠ k / 64) :
    memRead (withBit ws k) i = memRead ws i :=
  memRead_memWrite_ne ws h _

/-- Bit k becomes 1 and no other bit changes: it shares its word with bits of other positions only. -/
theorem bitVal_withBit {ws : List Word} {k : Nat} (h : k < ws.length * 64) (j : Nat) :
    bitVal (withBit ws k) j = (decide (j = k) || bitVal ws j) := by
  rw [bitVal_eq_getLsbD, bitVal_eq_getLsbD]
  by_cases hj : j / 64 = k / 64
  · have hpos : (j % 64 = k % 64) = (j = k) := by rw [eq_iff_iff]; omega
    rw [hj, memRead_withBit_same h, BitVec.getLsbD_or, bitMask_getLsbD, Bool.or_comm]
    simp only [hpos]
  · have hne : j ≠ k := fun e => hj (e ▸ rfl)
    rw [memRead_withBit_ne ws hj]
    simp [hne]

/-! ### How the commands end -/

/-- A construction above the capacity fails with CapacityExceeded (R165). -/
theorem fails_of_withCapacity {i : Instr} {s : State} {n capacity : Nat} {go : Host.Outcome State Fault Refusal}
    (h : exec i s = withCapacity n capacity s go) (hn : capacity < n) : Fails i s .capacityExceeded :=
  h.trans (withCapacity_of_lt hn s go)

section
variable {s : State} {rd : BvSel} {n k : Nat}

/-- `bv.new` is `bv.from_elem` with bit 0 (R70). -/
theorem exec_bvNew_eq_exec_bvFromElem : exec (.bvNew rd n) s = exec (.bvFromElem rd n false) s := rfl

theorem exec_bvNew_of_le (h : n ≤ s.params.maxW) : exec (.bvNew rd n) s = respond 0 (s.setBv rd (zeros n)) :=
  withCapacity_of_le h _ _

theorem completes_bvNew (h : n ≤ s.params.maxW) :
    ∃ t, Completes (.bvNew rd n) s 0 t ∧ OnlyBv rd s t ∧ t.mem.bv rd = zeros n :=
  completes_of_respond_setBv (exec_bvNew_of_le h)

theorem completes_bvFromElem (bit : Bool) (h : n ≤ s.params.maxW) :
    ∃ t, Completes (.bvFromElem rd n bit) s 0 t ∧ OnlyBv rd s t ∧ t.mem.bv rd = fill n (fillWord bit) :=
  completes_of_respond_setBv (withCapacity_of_le h _ _)

theorem completes_bvSet (h : k < (s.mem.bv rd).length * 64) :
    ∃ t, Completes (.bvSet rd k) s 0 t ∧ OnlyBv rd s t ∧ t.mem.bv rd = withBit (s.mem.bv rd) k :=
  completes_of_respond_setBv (withIndex_of_lt h _ _)

theorem completes_bvGet (h : k < (s.mem.bv rd).length * 64) :
    ∃ t, Completes (.bvGet rd k) s (boolData (bitVal (s.mem.bv rd) k)) t ∧ SameHolders s t := by
  refine ⟨_, completes_of_respond ?_, rfl⟩
  rw [bitVal_eq_bitAt]
  exact withIndex_of_lt h _ _

theorem completes_bvClear :
    ∃ t, Completes (.bvClear rd) s 0 t ∧ OnlyBv rd s t ∧ t.mem.bv rd = zeroed (s.mem.bv rd) :=
  completes_of_respond_setBv rfl

theorem exec_bvIsEmpty (s : State) (rd : BvSel) :
    exec (.bvIsEmpty rd) s = respond (if s.mem.bv rd = [] then 1 else 0) s := by
  simp [exec, execBvIsEmpty, boolData, List.length_eq_zero_iff]

/-- Under the invariant a length is at most 2^26, so 64 bits hold it exactly (R46). -/
theorem countData_bv_length_toNat (h : s.Inv) (rd : BvSel) :
    (countData (s.mem.bv rd).length).toNat = (s.mem.bv rd).length := by
  obtain ⟨⟨-, hmaxW, -, -⟩, hwf⟩ := h
  have hlen := bv_length_le hwf rd
  exact Nat.mod_eq_of_lt (by omega)

/-- `bv.get` as a response: the bit at an index in range. -/
theorem bvGet_answers {b : Bool} (h : k < (s.mem.bv rd).length * 64) (hb : bitVal (s.mem.bv rd) k = b) :
    ∃ u, exec (.bvGet rd k) s = .next u ∧ u.rsp = some (.ok (boolData b)) := by
  obtain ⟨u, ⟨hu, hrsp, -⟩, -⟩ := completes_bvGet h
  exact ⟨u, hu, hb ▸ hrsp⟩

end

/-! ### The obligations -/

/-- Settles O1: the control word is a BTI word, and the words are `zeros n`. -/
theorem bvNewConstructsZeroWords : Obligations.BvNewConstructsZeroWords := by
  intro s rd n
  refine ⟨fun wd hn => ?_, fun hn => ?_, fails_of_withCapacity rfl, exec_bvNew_eq_exec_bvFromElem⟩
  · exact decode_cwImm 0x10 rfl (Laws.EncodesToItsRow.bvNew rd n) (decide_eq_true hn) rfl wd hn
  · obtain ⟨t, hc, honly, hws⟩ := completes_bvNew (rd := rd) hn
    exact ⟨t, hc, honly, by simp [hws], by simp [hws], by simp [hws]⟩

/-- Settles O2: the control word is a BTIF word, and the words are ONES or ZERO, all of whose bits are the fill bit. -/
theorem bvFromElemFillsEveryBit : Obligations.BvFromElemFillsEveryBit := by
  intro s rd n bit
  refine ⟨fun wd hn => ?_, fun hn => ?_, fails_of_withCapacity rfl⟩
  · have hcw : cwFn 0x11 (bvNum rd) bit.toNat n = wordBtif 0x11 rd n bit := cwFn_eq_wordBtif 0x11 rd bit hn
    rw [hcw]
    exact decode_encodeWord (Laws.EncodesToItsRow.bvFromElem rd n bit) (decide_eq_true hn) rfl wd
  · obtain ⟨t, hc, honly, hws⟩ := completes_bvFromElem (rd := rd) bit hn
    refine ⟨t, hc, honly, ?_⟩
    rw [hws]
    exact ⟨fill_length .., fun i hi => memRead_fill hi _, fun k hk => bitVal_fill_fillWord bit hk⟩

/-- Settles O3: the words are `withBit`, and `total_bits` is the index's limit. -/
theorem bvSetSetsExactlyOneBit : Obligations.BvSetSetsExactlyOneBit := by
  intro s rd k
  refine ⟨fun wd hk => ?_, fun hk => ?_, fails_of_withIndex rfl⟩
  · exact decode_cwImm 0x12 rfl (Laws.EncodesToItsRow.bvSet rd k) (decide_eq_true hk) rfl wd hk
  · obtain ⟨t, hc, honly, hws⟩ := completes_bvSet hk
    refine ⟨t, hc, honly, ?_⟩
    rw [hws]
    exact ⟨withBit_length .., memRead_withBit_same hk, fun i hi => memRead_withBit_ne _ hi, bitVal_withBit hk⟩

/-- Settles O4: the answer is the bit as data, and only the response changes. -/
theorem bvGetAnswersTheBit : Obligations.BvGetAnswersTheBit := by
  intro s rd k
  have hdecode (wd : Word) (hk : k < 2 ^ 32) : decode ⟨cwImm 0x13 (bvNum rd) k, wd⟩ = .legal (.bvGet rd k) :=
    decode_cwImm 0x13 rfl (Laws.EncodesToItsRow.bvGet rd k) (decide_eq_true hk) rfl wd hk
  exact ⟨hdecode, completes_bvGet, fails_of_withIndex rfl⟩

/-- Settles O5: the words are zeroed, which are those of `bv.new` with the present length. -/
theorem bvClearZeroesEveryWord : Obligations.BvClearZeroesEveryWord := by
  intro s rd
  refine ⟨fun wd => ?_, ?_, fun hlen => (exec_bvNew_of_le hlen).symm⟩
  · exact decode_cwImm 0x14 rfl (Laws.EncodesToItsRow.bvClear rd) rfl rfl wd (by decide)
  · obtain ⟨t, hc, honly, hws⟩ := completes_bvClear (s := s) (rd := rd)
    exact ⟨t, hc, honly, by simp [hws], by simp [hws], by simp [hws, zeroed]⟩

/-- Settles O6: no word is no length, and the capacity keeps a length below 2^64. -/
theorem bvLengthQueriesAnswerTheLength : Obligations.BvLengthQueriesAnswerTheLength := by
  intro s rd
  refine ⟨fun wd => ?_, fun wd => ?_, ⟨_, completes_of_respond (exec_bvIsEmpty s rd), rfl⟩,
    ⟨_, _, completes_of_respond rfl, rfl, rfl, fun h => countData_bv_length_toNat h rd⟩⟩
  · exact decode_cwImm 0x15 rfl (Laws.EncodesToItsRow.bvIsEmpty rd) rfl rfl wd (by decide)
  · exact decode_cwImm 0x16 rfl (Laws.EncodesToItsRow.bvLen rd) rfl rfl wd (by decide)

/-- Settles O7: `bv.get` answers a bit, and each of the three commands leaves words whose bits are known. -/
theorem bvSetThenGetLaws : Obligations.BvSetThenGetLaws := by
  intro s v k j hk hj
  refine ⟨?_, fun hlen => ⟨?_, ?_⟩⟩
  · obtain ⟨t, ⟨ht, -, -⟩, honly, hws⟩ := completes_bvSet hk
    have hbits : ∀ i, bitVal (t.mem.bv v) i = (decide (i = k) || bitVal (s.mem.bv v) i) :=
      fun i => hws ▸ bitVal_withBit hk i
    have hlen : (t.mem.bv v).length = (s.mem.bv v).length := by simp [hws]
    refine ⟨t, ht, bvGet_answers (b := true) (hlen ▸ hk) (by simp [hbits]), fun hne => ?_, honly,
      fun h1 => by simp [hbits, h1]⟩
    obtain ⟨u, hu, hrsp⟩ := bvGet_answers (hlen ▸ hj) (by simpa [hne] using hbits j)
    obtain ⟨u', hu', hrsp'⟩ := bvGet_answers hj rfl
    exact ⟨u, u', hu, hu', hrsp.trans hrsp'.symm⟩
  · obtain ⟨t, ⟨ht, -, -⟩, -, hws⟩ := completes_bvNew (rd := v) hlen
    exact ⟨t, ht, bvGet_answers (b := false) (by simpa [hws] using hj) (by simp [hws])⟩
  · obtain ⟨t, ⟨ht, -, -⟩, -, hws⟩ := completes_bvFromElem (rd := v) true hlen
    exact ⟨t, ht, bvGet_answers (by simpa [hws] using hj) (hws ▸ bitVal_fill_fillWord true hj)⟩

end Sys2Proof.Machine
end

section
/-! PROOFS, family 41_bit_vector_boolean. The rule the seven boolean commands share, and their identities
(spec/41_bit_vector_boolean.md R90, R92 to R99). -/

namespace Sys2Proof.Machine

/-! ### Control words with three selectors (R52, R54) -/

theorem cwSel_eq_wordBr3 (op : BitVec 8) (rd ra rb : BvSel) :
    cwSel op.toNat (bvNum rd) (bvNum ra) (bvNum rb) = wordBr3 op rd ra rb := by
  apply BitVec.eq_of_toNat_eq
  rw [wordBr3, Fields.toWord_toNat, cwSel, BitVec.toNat_ofNat]
  simp only [bvNum_eq_toField_toNat, BitVec.ofNat_eq_ofNat, BitVec.toNat_zero]
  have hop := op.isLt
  have hrd := rd.toField.isLt
  have hra := ra.toField.isLt
  have hrb := rb.toField.isLt
  omega

/-! ### The rule the seven commands share (R90) -/

/-- With sources of equal length a boolean command completes and replaces its destination by the combined words. -/
theorem completes_of_execBoolean {i : Instr} {s : State} {f : Word → Word → Word} {rd ra rb : BvSel}
    (h : exec i s = execBoolean f rd ra rb s) (hlen : (s.mem.bv ra).length = (s.mem.bv rb).length) :
    ∃ t, Completes i s 0 t ∧ OnlyBv rd s t ∧ t.mem.bv rd = combine f (s.mem.bv ra) (s.mem.bv rb) :=
  completes_of_respond_setBv (h.trans (execBoolean_of_eq f rd hlen))

/-- A command of format BR3 that executes as `execBoolean f`. -/
structure IsBoolean (mk : BvSel → BvSel → BvSel → Instr) (op : BitVec 8) (f : Word → Word → Word) : Prop where
  exec_eq : ∀ rd ra rb s, exec (mk rd ra rb) s = execBoolean f rd ra rb s
  encodeWord_eq : ∀ rd ra rb, encodeWord (mk rd ra rb) = wordBr3 op rd ra rb
  encodes : ∀ rd ra rb, Laws.EncodesToItsRow.Statement (mk rd ra rb)
  wellFormed : ∀ rd ra rb, (mk rd ra rb).wellFormed = true
  usesWd : ∀ rd ra rb, (mk rd ra rb).usesWd = false

theorem isBoolean_bvOr : IsBoolean .bvOr 0x20 wordOr :=
  ⟨fun _ _ _ _ => rfl, fun _ _ _ => rfl, Laws.EncodesToItsRow.bvOr, fun _ _ _ => rfl, fun _ _ _ => rfl⟩

theorem isBoolean_bvAnd : IsBoolean .bvAnd 0x21 wordAnd :=
  ⟨fun _ _ _ _ => rfl, fun _ _ _ => rfl, Laws.EncodesToItsRow.bvAnd, fun _ _ _ => rfl, fun _ _ _ => rfl⟩

theorem isBoolean_bvXor : IsBoolean .bvXor 0x22 wordXor :=
  ⟨fun _ _ _ _ => rfl, fun _ _ _ => rfl, Laws.EncodesToItsRow.bvXor, fun _ _ _ => rfl, fun _ _ _ => rfl⟩

theorem isBoolean_bvNand : IsBoolean .bvNand 0x23 wordNand :=
  ⟨fun _ _ _ _ => rfl, fun _ _ _ => rfl, Laws.EncodesToItsRow.bvNand, fun _ _ _ => rfl, fun _ _ _ => rfl⟩

theorem isBoolean_bvNor : IsBoolean .bvNor 0x24 wordNor :=
  ⟨fun _ _ _ _ => rfl, fun _ _ _ => rfl, Laws.EncodesToItsRow.bvNor, fun _ _ _ => rfl, fun _ _ _ => rfl⟩

theorem isBoolean_bvXnor : IsBoolean .bvXnor 0x25 wordXnor :=
  ⟨fun _ _ _ _ => rfl, fun _ _ _ => rfl, Laws.EncodesToItsRow.bvXnor, fun _ _ _ => rfl, fun _ _ _ => rfl⟩

theorem isBoolean_bvDifference : IsBoolean .bvDifference 0x26 wordDifference :=
  ⟨fun _ _ _ _ => rfl, fun _ _ _ => rfl, Laws.EncodesToItsRow.bvDifference, fun _ _ _ => rfl, fun _ _ _ => rfl⟩

section
variable {mk : BvSel → BvSel → BvSel → Instr} {op : BitVec 8} {f : Word → Word → Word}

theorem IsBoolean.decode_cwSel (h : IsBoolean mk op f) (rd ra rb : BvSel) (wd : Word) :
    decode ⟨cwSel op.toNat (bvNum rd) (bvNum ra) (bvNum rb), wd⟩ = .legal (mk rd ra rb) := by
  rw [cwSel_eq_wordBr3, ← h.encodeWord_eq]
  exact decode_encodeWord (h.encodes rd ra rb) (h.wellFormed rd ra rb) (h.usesWd rd ra rb) wd

theorem IsBoolean.booleanRule (h : IsBoolean mk op f) : BooleanRule mk op.toNat f := by
  intro s rd ra rb
  refine ⟨h.decode_cwSel rd ra rb, fun hlen => ?_, fun hne => (h.exec_eq ..).trans (execBoolean_of_ne f rd hne)⟩
  obtain ⟨t, hc, honly, hws⟩ := completes_of_execBoolean (h.exec_eq rd ra rb s) hlen
  refine ⟨t, hc, honly, ?_⟩
  rw [hws]
  exact ⟨combine_length f hlen, fun i hi => memRead_combine f hlen hi⟩

end

/-! ### Identities of the combined words (R99) -/

theorem wordNand_self (x : Word) : wordNand x x = ~~~x := congrArg (~~~ ·) BitVec.and_self

/-- Complementing each combined word is combining with the complemented word function. -/
theorem map_not_combine (f : Word → Word → Word) (a b : List Word) :
    (combine f a b).map (fun x => ~~~x) = combine (fun x y => ~~~(f x y)) a b :=
  List.map_zipWith

theorem combine_wordAnd_map_not (a b : List Word) :
    combine wordAnd a (b.map fun x => ~~~x) = combine wordDifference a b :=
  List.zipWith_map_right

theorem wordOr_comm (x y : Word) : wordOr x y = wordOr y x := BitVec.or_comm x y

theorem wordAnd_comm (x y : Word) : wordAnd x y = wordAnd y x := BitVec.and_comm x y

theorem wordXor_comm (x y : Word) : wordXor x y = wordXor y x := BitVec.xor_comm x y

/-- When the word function is symmetric, so is the command: the length test is, too. -/
theorem execBoolean_comm {f : Word → Word → Word} (hf : ∀ x y, f x y = f y x) (rd ra rb : BvSel) (s : State) :
    execBoolean f rd ra rb s = execBoolean f rd rb ra s := by
  have hws : combine f (s.mem.bv ra) (s.mem.bv rb) = combine f (s.mem.bv rb) (s.mem.bv ra) :=
    List.zipWith_comm_of_comm hf
  simp only [execBoolean, hws, eq_comm]

/-- The word function f acts at each bit position as the function g of two bits. -/
def ActsBitwise (f : Word → Word → Word) (g : Bool → Bool → Bool) : Prop :=
  ∀ x y : Word, ∀ b < 64, (f x y).getLsbD b = g (x.getLsbD b) (y.getLsbD b)

theorem actsBitwise_wordOr : ActsBitwise wordOr (· || ·) := fun _ _ _ _ => BitVec.getLsbD_or

theorem actsBitwise_wordAnd : ActsBitwise wordAnd (· && ·) := fun _ _ _ _ => BitVec.getLsbD_and

theorem actsBitwise_wordXor : ActsBitwise wordXor (· ^^ ·) := fun _ _ _ _ => BitVec.getLsbD_xor

theorem actsBitwise_wordDifference : ActsBitwise wordDifference (fun p q => p && !q) := by
  intro x y b hb
  simp [wordDifference, hb]

/-- The complement is over all 64 bits, so it negates the bit at each position. -/
theorem ActsBitwise.not {f : Word → Word → Word} {g : Bool → Bool → Bool} (h : ActsBitwise f g) :
    ActsBitwise (fun x y => ~~~(f x y)) (fun p q => !g p q) := by
  intro x y b hb
  rw [BitVec.getLsbD_not, h x y b hb, decide_eq_true hb, Bool.true_and]

theorem bitVal_combine {f : Word → Word → Word} {g : Bool → Bool → Bool} (hfg : ActsBitwise f g) {a b : List Word}
    (hlen : a.length = b.length) {k : Nat} (hk : k < a.length * 64) :
    bitVal (combine f a b) k = g (bitVal a k) (bitVal b k) := by
  have hword : k / 64 < a.length := by omega
  simp only [bitVal_eq_getLsbD, memRead_combine f hlen hword]
  exact hfg _ _ _ (Nat.mod_lt k (by decide))

/-! ### Identities of the commands (R99) -/

theorem execSeq_pair {i j : Instr} {s t u : State} (hi : exec i s = .next t) (hj : exec j t = .next u) :
    (execSeq [i, j] s).map Prod.fst = some u := by
  simp [execSeq, hi, hj]

section
variable {s : State} {rd ra rb : BvSel} {f : Word → Word → Word} {i j : Instr}

/-- R99 (a): a command whose word function is the complement of another's leaves what the other leaves once
complemented in place. -/
theorem bv_eq_execSeq_complement (hlen : (s.mem.bv ra).length = (s.mem.bv rb).length)
    (hi : exec i s = execBoolean (fun x y => ~~~(f x y)) rd ra rb s) (hj : exec j s = execBoolean f rd ra rb s) :
    ∃ t u, exec i s = .next t ∧ (execSeq [j, .bvNand rd rd rd] s).map Prod.fst = some u ∧
      t.mem.bv rd = u.mem.bv rd := by
  obtain ⟨t, ⟨ht, -, -⟩, -, hws⟩ := completes_of_execBoolean hi hlen
  obtain ⟨m, ⟨hm, -, -⟩, -, hmid⟩ := completes_of_execBoolean hj hlen
  obtain ⟨u, ⟨hu, -, -⟩, -, hnot⟩ :=
    completes_of_execBoolean_self (isBoolean_bvNand.exec_eq rd rd rd m) wordNand_self
  exact ⟨t, u, ht, execSeq_pair hm hu, by rw [hws, hnot, hmid, map_not_combine]⟩

/-- R99 (b): difference is AND with the second source complemented into a scratch holder that keeps the first. -/
theorem bvDifference_bv_eq_execSeq_complement_and (hlen : (s.mem.bv ra).length = (s.mem.bv rb).length) {scratch : BvSel}
    (hne : scratch ≠ ra) :
    ∃ t u, exec (.bvDifference rd ra rb) s = .next t ∧
      (execSeq [.bvNand scratch rb rb, .bvAnd rd ra scratch] s).map Prod.fst = some u ∧
      t.mem.bv rd = u.mem.bv rd := by
  obtain ⟨t, ⟨ht, -, -⟩, -, hws⟩ := completes_of_execBoolean (isBoolean_bvDifference.exec_eq rd ra rb s) hlen
  obtain ⟨m, ⟨hm, -, -⟩, ⟨hframe, -⟩, hnot⟩ :=
    completes_of_execBoolean_self (isBoolean_bvNand.exec_eq scratch rb rb s) wordNand_self
  have hra : m.mem.bv ra = s.mem.bv ra := hframe ra hne.symm
  have hlen' : (m.mem.bv ra).length = (m.mem.bv scratch).length := by simp [hra, hnot, hlen]
  obtain ⟨u, ⟨hu, -, -⟩, -, hand⟩ := completes_of_execBoolean (isBoolean_bvAnd.exec_eq rd ra scratch m) hlen'
  exact ⟨t, u, ht, execSeq_pair hm hu, by rw [hws, hand, hra, hnot, combine_wordAnd_map_not]⟩

/-- R99 (d): `bv.get` of the result answers the function of the sources' bits. -/
theorem bvGet_after_boolean {gb : Bool → Bool → Bool} (hlen : (s.mem.bv ra).length = (s.mem.bv rb).length) {k : Nat}
    (hk : k < (s.mem.bv ra).length * 64) (hi : exec i s = execBoolean f rd ra rb s) (hf : ActsBitwise f gb) :
    ∃ t u, exec i s = .next t ∧ exec (.bvGet rd k) t = .next u ∧
      u.rsp = some (.ok (if gb (bitVal (s.mem.bv ra) k) (bitVal (s.mem.bv rb) k) then 1 else 0)) := by
  obtain ⟨t, ⟨ht, -, -⟩, -, hws⟩ := completes_of_execBoolean hi hlen
  have hk' : k < (t.mem.bv rd).length * 64 := by rwa [hws, combine_length f hlen]
  obtain ⟨u, hu, hrsp⟩ := bvGet_answers hk' (hws ▸ bitVal_combine hf hlen hk)
  exact ⟨t, u, ht, hu, hrsp⟩

end

/-- A state whose holders `BV[0]` and `BV[1]` have one word each, ONES and ZERO: ONES without ZERO is ONES, ZERO
without ONES is ZERO. -/
theorem bvDifference_not_symmetric : ∃ (s : State) (rd ra rb : BvSel),
    (s.mem.bv ra).length = (s.mem.bv rb).length ∧
    exec (.bvDifference rd ra rb) s ≠ exec (.bvDifference rd rb ra) s := by
  refine ⟨{ State.reset with mem := { Memory.empty with bv0 := [.ones], bv1 := [.zero] } }, .v2, .v0, .v1, rfl, ?_⟩
  intro h
  injection h with h
  exact absurd (congrArg (·.mem.bv2) h) (by decide)

/-! ### The obligations -/

/-- Settles O8: each is boolean with its opcode and its word function. -/
theorem orAndXorCombineWordwise : Obligations.OrAndXorCombineWordwise :=
  ⟨isBoolean_bvOr.booleanRule, isBoolean_bvAnd.booleanRule, isBoolean_bvXor.booleanRule⟩

/-- Settles O9: each is boolean with its opcode and its word function, complemented over all 64 bits. -/
theorem nandNorXnorCombineWordwise : Obligations.NandNorXnorCombineWordwise :=
  ⟨isBoolean_bvNand.booleanRule, isBoolean_bvNor.booleanRule, isBoolean_bvXnor.booleanRule⟩

/-- Settles O10: the command is boolean with self as its first source. -/
theorem differenceRemovesMemberships : Obligations.DifferenceRemovesMemberships := isBoolean_bvDifference.booleanRule

/-- Settles O12: the combined words obey the identities word by word, the answers bit by bit, and only difference
tells its sources apart. -/
theorem booleanIdentitiesHold : Obligations.BooleanIdentitiesHold := by
  refine ⟨fun s rd ra rb hlen => ⟨?_, fun _ => bvDifference_bv_eq_execSeq_complement_and hlen, fun k hk => ?_⟩,
    fun s rd ra rb => ⟨?_, ?_, ?_, ?_, ?_, ?_⟩, bvDifference_not_symmetric⟩
  · simp only [List.forall_mem_cons]
    exact ⟨bv_eq_execSeq_complement (f := wordXor) hlen rfl rfl,
      bv_eq_execSeq_complement (f := wordAnd) hlen rfl rfl,
      bv_eq_execSeq_complement (f := wordOr) hlen rfl rfl, List.forall_mem_nil _⟩
  · simp only [List.forall_mem_cons]
    exact ⟨bvGet_after_boolean hlen hk rfl actsBitwise_wordOr, bvGet_after_boolean hlen hk rfl actsBitwise_wordAnd,
      bvGet_after_boolean hlen hk rfl actsBitwise_wordXor, bvGet_after_boolean hlen hk rfl actsBitwise_wordOr.not,
      bvGet_after_boolean hlen hk rfl actsBitwise_wordAnd.not, bvGet_after_boolean hlen hk rfl actsBitwise_wordXor.not,
      bvGet_after_boolean hlen hk rfl actsBitwise_wordDifference, List.forall_mem_nil _⟩
  · exact execBoolean_comm wordOr_comm rd ra rb s
  · exact execBoolean_comm wordAnd_comm rd ra rb s
  · exact execBoolean_comm wordXor_comm rd ra rb s
  · exact execBoolean_comm (fun x y => congrArg (~~~ ·) (wordAnd_comm x y)) rd ra rb s
  · exact execBoolean_comm (fun x y => congrArg (~~~ ·) (wordOr_comm x y)) rd ra rb s
  · exact execBoolean_comm (fun x y => congrArg (~~~ ·) (wordXor_comm x y)) rd ra rb s

end Sys2Proof.Machine
end

section
/-! PROOFS, family 42_slot_storage. The slot storage commands, the counts and the two clears: the control word of each
command, the slots and counters it leaves, and how it ends (spec/42_slot_storage.md R110 to R114,
spec/43_counting_vector.md R126, R132). -/

namespace Sys2Proof.Machine

/-! ### Control words that name a counting-vector holder (R52, R53, R54) -/

/-- A selector field does not say of which kind its holder is: `c0` and `c1` are written as `v0` and `v1` are. -/
theorem exists_bvSel_of_same_field (c : CvSel) : ∃ v : BvSel, bvNum v = cvNum c ∧ v.toField = c.toField := by
  cases c with
  | c0 => exact ⟨.v0, rfl, rfl⟩
  | c1 => exact ⟨.v1, rfl, rfl⟩

theorem cwFn_cvNum_eq_toWord (op : BitVec 8) (rd : CvSel) (fn : BitVec 4) {imm : Nat} (h : imm < 2 ^ 32) :
    cwFn op.toNat (cvNum rd) fn.toNat imm =
      Fields.toWord ⟨op, rd.toField, 0, 0, fn, 0, BitVec.ofNat 32 imm⟩ := by
  obtain ⟨v, hnum, hfield⟩ := exists_bvSel_of_same_field rd
  rw [← hnum, ← hfield]
  exact cwFn_eq_toWord op v fn h

theorem cwImm_eq_wordCti (op : BitVec 8) (rd : CvSel) {n : Nat} (h : n < 2 ^ 32) :
    cwImm op.toNat (cvNum rd) n = wordCti op rd n := by
  obtain ⟨v, hnum, hfield⟩ := exists_bvSel_of_same_field rd
  rw [wordCti, ← hnum, ← hfield]
  exact cwImm_eq_wordBti op v h

/-- A command whose word has format CTI, or CT as CTI with immediate 0, decodes from the opcode, `rd` and `imm`
alone. -/
theorem decode_cwImm_cvNum {i : Instr} (op : BitVec 8) {rd : CvSel} {n : Nat} (hcw : encodeWord i = wordCti op rd n)
    (hrow : Laws.EncodesToItsRow.Statement i) (hwf : i.wellFormed = true) (hwd : i.usesWd = false) (wd : Word)
    (hn : n < 2 ^ 32) : decode ⟨cwImm op.toNat (cvNum rd) n, wd⟩ = .legal i := by
  rw [cwImm_eq_wordCti op rd hn, ← hcw]
  exact decode_encodeWord hrow hwf hwd wd

/-- The one row of the opcode map with opcode 0x30 has format CTI. -/
theorem format_eq_cti_of_0x30_mem_opcodes {fmt : Format} (h : 0x30 ∈ fmt.opcodes) : fmt = .cti := by
  cases fmt with
  | cti => rfl
  | z | bt | bti | btif | br3 | ct => exact absurd h (by decide)

/-- An init policy other than 0 is no command: format CTI fixes `fn` at 0 (R56, R110). -/
theorem decode_ssNew_policy_eq_none (rd : CvSel) {policy n : Nat} (hpos : 1 ≤ policy) (hlt : policy < 16)
    (hn : n < 2 ^ 32) (wd : Word) : (decode ⟨cwFn 0x30 (cvNum rd) policy n, wd⟩).instr? = none := by
  obtain ⟨fn, rfl⟩ := exists_field (n := 4) hlt
  have hcw : cwFn 0x30 (cvNum rd) fn.toNat n = Fields.toWord ⟨0x30, rd.toField, 0, 0, fn, 0, BitVec.ofNat 32 n⟩ :=
    cwFn_cvNum_eq_toWord 0x30 rd fn hn
  rw [hcw]
  by_contra hlegal
  obtain ⟨-, fmt, hop, hin⟩ := (decode_toWord_instr?_ne_none _ wd).mp hlegal
  obtain rfl := format_eq_cti_of_0x30_mem_opcodes hop
  obtain ⟨-, -, -, hfn⟩ := hin
  have hzero : fn.toNat = 0 := hfn
  omega

/-! ### Zero slots hold zero counters (R125) -/

@[simp] theorem ctrVal_zeros (n k : Nat) : ctrVal (zeros n) k = 0 := by simp [ctrVal]

@[simp] theorem ctrVal_zeroed (ws : List Word) (k : Nat) : ctrVal (zeroed ws) k = 0 := ctrVal_zeros _ k

/-! ### How the commands end -/

/-- A command that responds after replacing one counting-vector holder completes, and only that holder changes. -/
theorem completes_of_respond_setCv {i : Instr} {s : State} {d : Word} {rd : CvSel} {ws : List Word}
    (h : exec i s = respond d (s.setCv rd ws)) : ∃ t, Completes i s d t ∧ OnlyCv rd s t ∧ t.mem.cv rd = ws :=
  ⟨_, ⟨h, rfl, rfl, rfl, rfl⟩, ⟨fun v => by simp, fun c hc => by simp [hc]⟩, by simp⟩

section
variable {s : State} {rd : CvSel}

theorem completes_ssNew {n : Nat} (h : n ≤ s.params.maxS) :
    ∃ t, Completes (.ssNew rd n) s 0 t ∧ OnlyCv rd s t ∧ t.mem.cv rd = zeros n :=
  completes_of_respond_setCv (withCapacity_of_le h _ _)

theorem completes_ssGet {i : Nat} (h : i < (s.mem.cv rd).length) :
    ∃ t, Completes (.ssGet rd i) s (memRead (s.mem.cv rd) i) t ∧ SameHolders s t :=
  ⟨_, completes_of_respond (withIndex_of_lt h _ _), rfl⟩

theorem completes_of_execSlotsClear {i : Instr} (h : exec i s = execSlotsClear rd s) :
    ∃ t, Completes i s 0 t ∧ OnlyCv rd s t ∧ t.mem.cv rd = zeroed (s.mem.cv rd) :=
  completes_of_respond_setCv h

/-! ### Counts as data (R46) -/

/-- Under the invariant a slot count is at most 2^28. -/
theorem cv_length_le_of_inv (h : s.Inv) (rd : CvSel) : (s.mem.cv rd).length ≤ 2 ^ 28 := by
  obtain ⟨⟨-, -, -, hmaxS⟩, hwf⟩ := h
  exact (cv_length_le hwf rd).trans hmaxS

theorem countData_cv_length_toNat (h : s.Inv) (rd : CvSel) :
    (countData (s.mem.cv rd).length).toNat = (s.mem.cv rd).length := by
  have hlen := cv_length_le_of_inv h rd
  exact Nat.mod_eq_of_lt (by omega)

theorem countData_counterCount_toNat (h : s.Inv) (rd : CvSel) :
    (countData (counterCount (s.mem.cv rd))).toNat = (s.mem.cv rd).length * 16 := by
  have hlen := cv_length_le_of_inv h rd
  have hcount : (s.mem.cv rd).length * 16 < 2 ^ 64 := by omega
  exact Nat.mod_eq_of_lt hcount

end

/-! ### Who changes a slot count (R112) -/

section
variable {i : Instr} {s t : State}

/-- A counter command writes at most one slot. -/
theorem mem_of_execCounter {f : Nat → Word → Candidate} {rd : CvSel} {k : Nat} (h : execCounter f rd k s = .next t) :
    t.mem = s.mem ∨ ∃ y, t.mem = s.mem.setCv rd (memWrite (s.mem.cv rd) (counterSlot k) y) := by
  rcases execCounter_cases f rd k s with ⟨-, he⟩ | ⟨-, y, -, he⟩ | ⟨-, -, he⟩
  · exact .inl (mem_of_raise (he.symm.trans h))
  · exact .inr ⟨y, mem_of_respond (he.symm.trans h)⟩
  · exact .inl (mem_of_respond (he.symm.trans h))

/-- A command that constructs another holder, or none, keeps the slot count: it does not write the holder, or it writes
as many slots as there were. -/
theorem cv_length_of_exec (h : exec i s = .next t) {c : CvSel} (hc : constructsCv i ≠ some c) :
    (t.mem.cv c).length = (s.mem.cv c).length := by
  by_cases htarget : target i = some (.inr c)
  · cases i with
    | ssNew rd n =>
      cases htarget
      exact absurd rfl hc
    | ssGet | ssSlotCount | cvCounterCount | cvGet =>
      have hmem : t.mem = s.mem := sameHolders_of_readsOnly rfl h
      rw [hmem]
    | ssClear rd | cvClear rd =>
      cases htarget
      rw [mem_of_respond h]
      simp
    | ssWr rd k x =>
      cases htarget
      rcases mem_of_withIndex h with hmem | hmem
      · rw [hmem]
      · simp [hmem]
    | cvIncrement rd k | cvDecrement rd k =>
      cases htarget
      rcases mem_of_execCounter h with hmem | ⟨y, hmem⟩
      · rw [hmem]
      · simp [hmem]
    | _ => cases htarget
  · rw [(effect_of_exec h).cvFrame c htarget]

theorem eq_ssNew_of_constructsCv {c : CvSel} (h : constructsCv i = some c) : ∃ n, i = .ssNew c n := by
  cases i with
  | ssNew rd n =>
    cases h
    exact ⟨n, rfl⟩
  | _ => cases h

end

/-! ### The obligations -/

/-- Settles O14: the control word is a CTI word, whose `fn` is 0, and the slots are `zeros n`. -/
theorem ssNewConstructsZeroSlots : Obligations.SsNewConstructsZeroSlots := by
  intro s rd n
  refine ⟨fun wd hn => ?_, fun policy wd hpos hlt hn => decode_ssNew_policy_eq_none rd hpos hlt hn wd, fun hn => ?_,
    fails_of_withCapacity rfl⟩
  · exact decode_cwImm_cvNum 0x30 rfl (Laws.EncodesToItsRow.ssNew rd n) (decide_eq_true hn) rfl wd hn
  · obtain ⟨t, hc, honly, hws⟩ := completes_ssNew (rd := rd) hn
    exact ⟨t, hc, honly, by simp [hws], by simp [hws], by simp [hws]⟩

/-- Settles O15: the slot count is the index's limit, and only the response changes. -/
theorem ssGetAnswersTheSlot : Obligations.SsGetAnswersTheSlot := by
  intro s rd i
  have hdecode (wd : Word) (hi : i < 2 ^ 32) : decode ⟨cwImm 0x31 (cvNum rd) i, wd⟩ = .legal (.ssGet rd i) :=
    decode_cwImm_cvNum 0x31 rfl (Laws.EncodesToItsRow.ssGet rd i) (decide_eq_true hi) rfl wd hi
  exact ⟨hdecode, completes_ssGet, fails_of_withIndex rfl⟩

/-- Settles O16: the capacity keeps both counts below 2^64, and a command that changes a slot count constructs the
holder. -/
theorem countQueriesAnswerTheCounts : Obligations.CountQueriesAnswerTheCounts := by
  intro s rd
  refine ⟨fun wd => ?_, fun wd => ?_,
    ⟨_, _, completes_of_respond rfl, rfl, rfl, fun h => countData_cv_length_toNat h rd⟩,
    ⟨_, _, completes_of_respond rfl, rfl, rfl, fun h => countData_counterCount_toNat h rd⟩, fun i t h hne => ?_⟩
  · exact decode_cwImm_cvNum 0x32 rfl (Laws.EncodesToItsRow.ssSlotCount rd) rfl rfl wd (by decide)
  · exact decode_cwImm_cvNum 0x40 rfl (Laws.EncodesToItsRow.cvCounterCount rd) rfl rfl wd (by decide)
  · have hconstructs : constructsCv i = some rd := by
      by_contra hc
      exact hne (cv_length_of_exec h hc)
    exact eq_ssNew_of_constructsCv hconstructs

/-- Settles O17: both commands execute as `execSlotsClear`, which leaves the slots zeroed. -/
theorem clearsZeroEveryCounter : Obligations.ClearsZeroEveryCounter := by
  intro s rd
  refine ⟨fun wd => ?_, fun wd => ?_, rfl, fun i hi => ?_⟩
  · exact decode_cwImm_cvNum 0x33 rfl (Laws.EncodesToItsRow.ssClear rd) rfl rfl wd (by decide)
  · exact decode_cwImm_cvNum 0x44 rfl (Laws.EncodesToItsRow.cvClear rd) rfl rfl wd (by decide)
  · have hexec : exec i s = execSlotsClear rd s := by
      simp only [List.mem_cons, List.not_mem_nil, or_false] at hi
      rcases hi with rfl | rfl <;> rfl
    obtain ⟨t, hc, honly, hws⟩ := completes_of_execSlotsClear hexec
    exact ⟨t, hc, honly, by simp [hws], by simp [hws], by simp [hws]⟩

end Sys2Proof.Machine
end

section
/-! PROOFS, family 43_counting_vector. Reading, incrementing and decrementing one counter: the control word of each
command, the slot it leaves, and what repeating it leaves (spec/43_counting_vector.md R125, R127 to R131). -/

namespace Sys2Proof.Machine

/-! ### A replaced nibble as a sum (R128, R130)

The cleared slot word and the shifted nibble have no bit in common, so a nibble one greater, short of the carry, makes
the slot word one unit of the nibble's position greater. -/

theorem cleared_and_shifted_eq_zero (p : Nat) (v : Nibble) (x : Word) :
    (x &&& ~~~fieldMask p) &&& (v.setWidth 64 <<< nibbleShift p) = 0#64 := by
  apply BitVec.eq_of_getLsbD_eq
  intro i hi
  simp only [BitVec.getLsbD_and, BitVec.getLsbD_not, fieldMask_getLsbD, BitVec.getLsbD_shiftLeft,
    BitVec.getLsbD_setWidth, BitVec.getLsbD_zero]
  by_cases hfield : i < nibbleShift p + 4
  · by_cases hbelow : i < nibbleShift p
    · simp [hbelow]
    · simp [hi, hfield, hbelow, Nat.not_lt.mp hbelow]
  · have habove : v.getLsbD (i - nibbleShift p) = false := BitVec.getLsbD_of_ge _ _ (by omega)
    simp [habove]

theorem withNibble_eq_add (p : Nat) (v : Nibble) (x : Word) :
    withNibble p v x = (x &&& ~~~fieldMask p) + (v.setWidth 64 <<< nibbleShift p) :=
  (BitVec.add_eq_or_of_and_eq_zero _ _ (cleared_and_shifted_eq_zero p v x)).symm

/-- Writing back the counter that stands there changes nothing. -/
theorem withNibble_nibbleAt (p : Nat) (x : Word) : withNibble p (nibbleAt p x) x = x := by
  apply BitVec.eq_of_getLsbD_eq
  intro i hi
  rw [withNibble_getLsbD]
  split
  next hfield =>
    obtain ⟨hge, hlt⟩ := hfield
    have hpos : i - nibbleShift p < 4 := by omega
    rw [nibbleAt_getLsbD, Nat.add_sub_cancel' hge, decide_eq_true hi, decide_eq_true hpos, Bool.true_and,
      Bool.true_and]
  next => rfl

theorem nibble_succ_setWidth : ∀ v : Nibble, v ≠ 15#4 → (v + 1#4).setWidth 64 = v.setWidth 64 + 1#64 := by decide

theorem withNibble_succ (p : Nat) {v : Nibble} (h : v ≠ 15#4) (x : Word) :
    withNibble p (v + 1#4) x = withNibble p v x + (1#64 <<< nibbleShift p) := by
  rw [withNibble_eq_add, withNibble_eq_add, nibble_succ_setWidth v h, BitVec.shiftLeft_add_distrib, BitVec.add_assoc]

/-- `IncT`'s word is `x + (1 << sh)` (R128). -/
theorem withNibble_nibbleAt_add_one {p : Nat} {x : Word} (h : nibbleAt p x ≠ 15#4) :
    withNibble p (nibbleAt p x + 1#4) x = x + (1#64 <<< nibbleShift p) := by
  rw [withNibble_succ p h, withNibble_nibbleAt]

theorem nibble_pred_ne_max : ∀ v : Nibble, v ≠ 0#4 → v - 1#4 ≠ 15#4 := by decide

/-- `DecT`'s word is `x - (1 << sh)` (R130). -/
theorem withNibble_nibbleAt_sub_one {p : Nat} {x : Word} (h : nibbleAt p x ≠ 0#4) :
    withNibble p (nibbleAt p x - 1#4) x = x - (1#64 <<< nibbleShift p) := by
  rw [BitVec.eq_sub_iff_add_eq, ← withNibble_succ p (nibble_pred_ne_max _ h), BitVec.sub_add_cancel,
    withNibble_nibbleAt]

/-! ### Replacing one counter of a counting vector (R125) -/

/-- The slots with counter k replaced, as the counter commands write them. -/
def withCounter (ws : List Word) (k : Nat) (v : Nibble) : List Word :=
  memWrite ws (k / 16) (withNibble (k % 16) v (memRead ws (k / 16)))

section
variable {ws : List Word} {k : Nat}

@[simp] theorem withCounter_length (ws : List Word) (k : Nat) (v : Nibble) :
    (withCounter ws k v).length = ws.length :=
  memWrite_length ..

theorem memRead_withCounter_same (h : k < ws.length * 16) (v : Nibble) :
    memRead (withCounter ws k v) (k / 16) = withNibble (k % 16) v (memRead ws (k / 16)) :=
  memRead_memWrite_same (by omega) _

theorem memRead_withCounter_ne (v : Nibble) {i : Nat} (h : i ≠ k / 16) :
    memRead (withCounter ws k v) i = memRead ws i :=
  memRead_memWrite_ne ws h _

/-- A counter is the nibble at its position of the slot that holds it. -/
theorem ctrVal_eq_nibbleAt_toNat (ws : List Word) (k : Nat) :
    ctrVal ws k = (nibbleAt (k % 16) (memRead ws (k / 16))).toNat :=
  (nibbleAt_toNat _ _).symm

theorem ctrVal_le (ws : List Word) (k : Nat) : ctrVal ws k ≤ 15 := Nat.le_pred_of_lt (Nat.mod_lt _ (by decide))

theorem ctrVal_withCounter_same (h : k < ws.length * 16) (v : Nibble) : ctrVal (withCounter ws k v) k = v.toNat := by
  rw [ctrVal_eq_nibbleAt_toNat, memRead_withCounter_same h, nibbleAt_withNibble_same]

/-- No other counter changes: it shares its slot with counters at other positions only. -/
theorem ctrVal_withCounter_ne (h : k < ws.length * 16) (v : Nibble) {j : Nat} (hj : j ≠ k) :
    ctrVal (withCounter ws k v) j = ctrVal ws j := by
  rw [ctrVal_eq_nibbleAt_toNat, ctrVal_eq_nibbleAt_toNat]
  by_cases hslot : j / 16 = k / 16
  · have hpos : j % 16 ≠ k % 16 := by omega
    rw [hslot, memRead_withCounter_same h,
      nibbleAt_withNibble_ne (Nat.mod_lt k (by decide)) (Nat.mod_lt j (by decide)) hpos]
  · rw [memRead_withCounter_ne v hslot]

/-- The slots with counter k one greater, wrapping at 15. -/
def incremented (ws : List Word) (k : Nat) : List Word := withCounter ws k (counterAt ws k + 1#4)

/-- The slots with counter k one less, wrapping at 0. -/
def decremented (ws : List Word) (k : Nat) : List Word := withCounter ws k (counterAt ws k - 1#4)

theorem counterAt_ne_max (h : ctrVal ws k < 15) : counterAt ws k ≠ 15#4 := by
  intro hmax
  simp [← counterAt_toNat, hmax] at h

theorem counterAt_ne_zero (h : 0 < ctrVal ws k) : counterAt ws k ≠ 0#4 := by
  intro hzero
  simp [← counterAt_toNat, hzero] at h

theorem nibble_succ_toNat : ∀ v : Nibble, v ≠ 15#4 → (v + 1#4).toNat = v.toNat + 1 := by decide

theorem nibble_pred_toNat : ∀ v : Nibble, v ≠ 0#4 → (v - 1#4).toNat + 1 = v.toNat := by decide

theorem ctrVal_incremented (h : k < ws.length * 16) (hv : ctrVal ws k < 15) :
    ctrVal (incremented ws k) k = ctrVal ws k + 1 := by
  rw [incremented, ctrVal_withCounter_same h, nibble_succ_toNat _ (counterAt_ne_max hv), counterAt_toNat]

theorem ctrVal_decremented (h : k < ws.length * 16) (hv : 0 < ctrVal ws k) :
    ctrVal (decremented ws k) k + 1 = ctrVal ws k := by
  rw [decremented, ctrVal_withCounter_same h, nibble_pred_toNat _ (counterAt_ne_zero hv), counterAt_toNat]

theorem memRead_incremented_same (h : k < ws.length * 16) (hv : ctrVal ws k < 15) :
    memRead (incremented ws k) (k / 16) = memRead ws (k / 16) + (1#64 <<< ((15 - k % 16) * 4)) :=
  (memRead_withCounter_same h _).trans (withNibble_nibbleAt_add_one (counterAt_ne_max hv))

theorem memRead_decremented_same (h : k < ws.length * 16) (hv : 0 < ctrVal ws k) :
    memRead (decremented ws k) (k / 16) = memRead ws (k / 16) - (1#64 <<< ((15 - k % 16) * 4)) :=
  (memRead_withCounter_same h _).trans (withNibble_nibbleAt_sub_one (counterAt_ne_zero hv))

end

/-! ### How the commands end -/

section
variable {s : State} {rd : CvSel} {k : Nat}

theorem completes_cvGet (h : k < (s.mem.cv rd).length * 16) :
    ∃ t, Completes (.cvGet rd k) s (nibbleData (counterAt (s.mem.cv rd) k)) t ∧ SameHolders s t :=
  ⟨_, completes_of_respond (withIndex_of_lt h _ _), rfl⟩

theorem nibbleData_counterAt_toNat (ws : List Word) (k : Nat) :
    (nibbleData (counterAt ws k)).toNat = ctrVal ws k := by
  rw [← counterAt_toNat]
  exact BitVec.toNat_setWidth_of_le (by decide)

/-- A counter command whose transform replaces the slot word answers 1 and changes only that slot. -/
theorem completes_of_execCounter_replace {i : Instr} {f : Nat → Word → Candidate} {y : Word}
    (hi : exec i s = execCounter f rd k s) (hk : k < counterCount (s.mem.cv rd))
    (hf : f (nibblePos k) (memRead (s.mem.cv rd) (counterSlot k)) = .replace y) :
    ∃ t, Completes i s 1 t ∧ OnlyCv rd s t ∧ t.mem.cv rd = memWrite (s.mem.cv rd) (counterSlot k) y := by
  apply completes_of_respond_setCv
  rw [hi, execCounter, withIndex_of_lt hk, update_of_replace hf]
  rfl

/-- A counter command whose transform leaves the slot word answers 0, a success, and changes nothing (R166). -/
theorem completes_of_execCounter_unchanged {i : Instr} {f : Nat → Word → Candidate}
    (hi : exec i s = execCounter f rd k s) (hk : k < counterCount (s.mem.cv rd))
    (hf : f (nibblePos k) (memRead (s.mem.cv rd) (counterSlot k)) = .unchanged) :
    ∃ t, Completes i s 0 t ∧ SameHolders s t := by
  refine ⟨_, completes_of_respond ?_, rfl⟩
  rw [hi, execCounter, withIndex_of_lt hk, update_of_unchanged hf]
  rfl

theorem completes_cvIncrement_of_lt (hk : k < (s.mem.cv rd).length * 16) (hv : ctrVal (s.mem.cv rd) k < 15) :
    ∃ t, Completes (.cvIncrement rd k) s 1 t ∧ OnlyCv rd s t ∧ t.mem.cv rd = incremented (s.mem.cv rd) k :=
  completes_of_execCounter_replace rfl hk (incT_of_not_max (counterAt_ne_max hv))

theorem completes_cvIncrement_of_max (hk : k < (s.mem.cv rd).length * 16) (hv : ctrVal (s.mem.cv rd) k = 15) :
    ∃ t, Completes (.cvIncrement rd k) s 0 t ∧ SameHolders s t :=
  completes_of_execCounter_unchanged rfl hk
    (incT_of_max (BitVec.eq_of_toNat_eq ((counterAt_toNat ..).trans hv)))

theorem completes_cvDecrement_of_pos (hk : k < (s.mem.cv rd).length * 16) (hv : 0 < ctrVal (s.mem.cv rd) k) :
    ∃ t, Completes (.cvDecrement rd k) s 1 t ∧ OnlyCv rd s t ∧ t.mem.cv rd = decremented (s.mem.cv rd) k :=
  completes_of_execCounter_replace rfl hk (decT_of_not_zero (counterAt_ne_zero hv))

theorem completes_cvDecrement_of_zero (hk : k < (s.mem.cv rd).length * 16) (hv : ctrVal (s.mem.cv rd) k = 0) :
    ∃ t, Completes (.cvDecrement rd k) s 0 t ∧ SameHolders s t :=
  completes_of_execCounter_unchanged rfl hk
    (decT_of_zero (BitVec.eq_of_toNat_eq ((counterAt_toNat ..).trans hv)))

end

/-! ### Repeating a counter command (R129, R131)

A counter has some room left before its bound: 15 - v for an increment, v for a decrement. Each command answers 1 and
uses one unit of it, or answers 0 when none is left; one induction then serves both commands. -/

/-- Command `i` on a valid counter k of `CV[rd]` uses one unit of the counter's room and answers whether there was
any. -/
def UsesRoom (i : Instr) (rd : CvSel) (k : Nat) (room : Nat → Nat) : Prop :=
  ∀ s : State, k < (s.mem.cv rd).length * 16 →
    ∃ t, Completes i s (boolData (decide (0 < room (ctrVal (s.mem.cv rd) k)))) t ∧
      (t.mem.cv rd).length = (s.mem.cv rd).length ∧
      room (ctrVal (t.mem.cv rd) k) = room (ctrVal (s.mem.cv rd) k) - 1

theorem usesRoom_cvIncrement (rd : CvSel) (k : Nat) : UsesRoom (.cvIncrement rd k) rd k (15 - ·) := by
  intro s hk
  rcases Nat.lt_or_eq_of_le (ctrVal_le (s.mem.cv rd) k) with hv | hv
  · obtain ⟨t, hc, -, hws⟩ := completes_cvIncrement_of_lt hk hv
    have hroom : 15 - ctrVal (t.mem.cv rd) k = 15 - ctrVal (s.mem.cv rd) k - 1 := by
      rw [hws, ctrVal_incremented hk hv, Nat.sub_sub]
    exact ⟨t, by simpa [boolData, hv] using hc, hws ▸ withCounter_length .., hroom⟩
  · obtain ⟨t, hc, hsame⟩ := completes_cvIncrement_of_max hk hv
    have hmem : t.mem = s.mem := hsame
    exact ⟨t, by simpa [boolData, hv] using hc, by rw [hmem], by simp [hmem, hv]⟩

theorem usesRoom_cvDecrement (rd : CvSel) (k : Nat) : UsesRoom (.cvDecrement rd k) rd k id := by
  intro s hk
  rcases Nat.eq_zero_or_pos (ctrVal (s.mem.cv rd) k) with hv | hv
  · obtain ⟨t, hc, hsame⟩ := completes_cvDecrement_of_zero hk hv
    have hmem : t.mem = s.mem := hsame
    exact ⟨t, by simpa [boolData, hv] using hc, by rw [hmem], by simp [hmem, hv]⟩
  · obtain ⟨t, hc, -, hws⟩ := completes_cvDecrement_of_pos hk hv
    have hroom : ctrVal (t.mem.cv rd) k = ctrVal (s.mem.cv rd) k - 1 := by
      rw [hws, ← ctrVal_decremented hk hv, Nat.add_sub_cancel]
    exact ⟨t, by simpa [boolData, hv] using hc, hws ▸ withCounter_length .., hroom⟩

theorem execSeq_cons {i : Instr} {is : List Instr} {s t u : State} {rs : List (Option Response)}
    (hi : exec i s = .next t) (his : execSeq is t = some (u, rs)) :
    execSeq (i :: is) s = some (u, t.rsp :: rs) := by
  simp [execSeq, hi, his]

/-- The answers of n commands with room r: as many 1s as there is room for, then 0s. -/
def roomAnswers (n r : Nat) : List (Option Response) :=
  List.replicate (min n r) (some (.ok 1)) ++ List.replicate (n - r) (some (.ok 0))

theorem roomAnswers_succ (n r : Nat) :
    roomAnswers (n + 1) r = some (.ok (boolData (decide (0 < r)))) :: roomAnswers n (r - 1) := by
  cases r with
  | zero => simp [roomAnswers, boolData, List.replicate_succ]
  | succ r => simp [roomAnswers, boolData, List.replicate_succ, Nat.add_min_add_right]

theorem execSeq_replicate_of_usesRoom {i : Instr} {rd : CvSel} {k : Nat} {room : Nat → Nat}
    (hi : UsesRoom i rd k room) (n : Nat) {s : State} (hk : k < (s.mem.cv rd).length * 16) :
    ∃ t, execSeq (List.replicate n i) s = some (t, roomAnswers n (room (ctrVal (s.mem.cv rd) k))) ∧
      room (ctrVal (t.mem.cv rd) k) = room (ctrVal (s.mem.cv rd) k) - n := by
  induction n generalizing s with
  | zero => exact ⟨s, by simp [execSeq, roomAnswers], rfl⟩
  | succ n ih =>
    obtain ⟨t, ⟨ht, hrsp, -⟩, hlen, hroom⟩ := hi s hk
    obtain ⟨u, hu, hleft⟩ := ih (hlen ▸ hk)
    refine ⟨u, ?_, by rw [hleft, hroom, Nat.sub_sub, Nat.add_comm]⟩
    rw [List.replicate_succ, execSeq_cons ht hu, hrsp, hroom, roomAnswers_succ]

/-- An increment and then a decrement: one less than what the increment, stopped at 15, leaves (R131). -/
theorem execSeq_cvIncrement_cvDecrement {s : State} {rd : CvSel} {k : Nat} (hk : k < (s.mem.cv rd).length * 16) :
    ∃ u rs, execSeq [.cvIncrement rd k, .cvDecrement rd k] s = some (u, rs) ∧
      ctrVal (u.mem.cv rd) k = min (ctrVal (s.mem.cv rd) k + 1) 15 - 1 := by
  obtain ⟨t, ⟨ht, -, -⟩, hlen, hinc⟩ := usesRoom_cvIncrement rd k s hk
  obtain ⟨u, ⟨hu, -, -⟩, -, hdec⟩ := usesRoom_cvDecrement rd k t (hlen ▸ hk)
  obtain ⟨⟨_, rs⟩, hrun, rfl⟩ := Option.map_eq_some_iff.mp (execSeq_pair ht hu)
  refine ⟨_, rs, hrun, ?_⟩
  have hs := ctrVal_le (s.mem.cv rd) k
  have ht15 := ctrVal_le (t.mem.cv rd) k
  simp only [id_eq] at hinc hdec
  omega

/-! ### The obligations -/

/-- Settles O18: the answer is the counter as data, a hex digit, and only the response changes. -/
theorem cvGetAnswersTheCounter : Obligations.CvGetAnswersTheCounter := by
  intro s rd k
  refine ⟨fun wd hk => ?_, fun hk => ?_, fails_of_withIndex rfl⟩
  · exact decode_cwImm_cvNum 0x41 rfl (Laws.EncodesToItsRow.cvGet rd k) (decide_eq_true hk) rfl wd hk
  · obtain ⟨t, hc, hsame⟩ := completes_cvGet hk
    have hdata := nibbleData_counterAt_toNat (s.mem.cv rd) k
    exact ⟨t, _, hc, hsame, hdata, hdata ▸ ctrVal_le ..⟩

/-- Settles O19: below 15 the slots are `incremented`, at 15 the transform leaves the slot alone. -/
theorem cvIncrementSaturatesAtFifteen : Obligations.CvIncrementSaturatesAtFifteen := by
  intro s rd k
  refine ⟨fun wd hk => ?_, fun hk hv => ?_, completes_cvIncrement_of_max, fails_of_withIndex rfl⟩
  · exact decode_cwImm_cvNum 0x42 rfl (Laws.EncodesToItsRow.cvIncrement rd k) (decide_eq_true hk) rfl wd hk
  · obtain ⟨t, hc, honly, hws⟩ := completes_cvIncrement_of_lt hk hv
    refine ⟨t, hc, honly, ?_⟩
    rw [hws]
    exact ⟨withCounter_length .., ctrVal_incremented hk hv, fun j hj => ctrVal_withCounter_ne hk _ hj,
      fun i hi => memRead_withCounter_ne _ hi, memRead_incremented_same hk hv⟩

/-- Settles O20: above 0 the slots are `decremented`, at 0 the transform leaves the slot alone. -/
theorem cvDecrementFloorsAtZero : Obligations.CvDecrementFloorsAtZero := by
  intro s rd k
  refine ⟨fun wd hk => ?_, fun hk hv => ?_, completes_cvDecrement_of_zero, fails_of_withIndex rfl⟩
  · exact decode_cwImm_cvNum 0x43 rfl (Laws.EncodesToItsRow.cvDecrement rd k) (decide_eq_true hk) rfl wd hk
  · obtain ⟨t, hc, honly, hws⟩ := completes_cvDecrement_of_pos hk hv
    refine ⟨t, hc, honly, ?_⟩
    rw [hws]
    exact ⟨withCounter_length .., ctrVal_decremented hk hv, fun j hj => ctrVal_withCounter_ne hk _ hj,
      fun i hi => memRead_withCounter_ne _ hi, memRead_decremented_same hk hv⟩

/-- Settles O21: an increment uses one unit of the room 15 - v. -/
theorem incrementsReachTheMinimum : Obligations.IncrementsReachTheMinimum := by
  intro s rd k n hk
  obtain ⟨t, hrun, hroom⟩ := execSeq_replicate_of_usesRoom (usesRoom_cvIncrement rd k) n hk
  refine ⟨t, hrun, ?_⟩
  have hs := ctrVal_le (s.mem.cv rd) k
  have ht := ctrVal_le (t.mem.cv rd) k
  omega

/-- Settles O22: a decrement uses one unit of the room v; the increment before a decrement is lost at 15 only. -/
theorem decrementsReachTheMaximum : Obligations.DecrementsReachTheMaximum := by
  intro s rd k n hk
  refine ⟨execSeq_replicate_of_usesRoom (usesRoom_cvDecrement rd k) n hk, ?_⟩
  obtain ⟨t, rs, hrun, hv⟩ := execSeq_cvIncrement_cvDecrement hk
  have hs := ctrVal_le (s.mem.cv rd) k
  exact ⟨t, rs, hrun, by omega, by omega⟩

end Sys2Proof.Machine
end

section
/-! PROOFS, family 44_host_access. `nop` and the raw word access: the control word of each command, the word it reads
or stores, and how it ends (spec/44_host_access.md R145, R147 to R149). -/

namespace Sys2Proof.Machine

/-! ### Control words of the commands that carry write data (R60) -/

/-- What the encoder gives for a well-formed command decodes to it, its write-data operand included. -/
theorem decode_encode_of_row {i : Instr} (hrow : Laws.EncodesToItsRow.Statement i) (hwf : i.wellFormed = true) :
    decode (encode i) = .legal i := by
  obtain ⟨r, hr, haccepts, hbuild⟩ := hrow hwf
  rw [decode_of_accepts hr haccepts, hbuild]

theorem decode_cwImm_bvWrw (rd : BvSel) {i : Nat} (x : Word) (hi : i < 2 ^ 32) :
    decode ⟨cwImm 0x18 (bvNum rd) i, x⟩ = .legal (.bvWrw rd i x) := by
  have hcw : cwImm 0x18 (bvNum rd) i = wordBti 0x18 rd i := cwImm_eq_wordBti 0x18 rd hi
  rw [hcw]
  exact decode_encode_of_row (Laws.EncodesToItsRow.bvWrw rd i x) (decide_eq_true hi)

theorem decode_cwImm_ssWr (rd : CvSel) {i : Nat} (x : Word) (hi : i < 2 ^ 32) :
    decode ⟨cwImm 0x34 (cvNum rd) i, x⟩ = .legal (.ssWr rd i x) := by
  have hcw : cwImm 0x34 (cvNum rd) i = wordCti 0x34 rd i := cwImm_eq_wordCti 0x34 rd hi
  rw [hcw]
  exact decode_encode_of_row (Laws.EncodesToItsRow.ssWr rd i x) (decide_eq_true hi)

/-! ### Control words with opcode 0 (R145) -/

/-- The one row of the opcode map with opcode 0x00 has format Z. -/
theorem format_eq_z_of_0x00_mem_opcodes {fmt : Format} (h : 0x00 ∈ fmt.opcodes) : fmt = .z := by
  cases fmt with
  | z => rfl
  | bt | bti | btif | br3 | ct | cti => exact absurd h (by decide)

/-- Format Z leaves no bit free, so a legal control word with opcode 0 is 0. -/
theorem eq_zero_of_legal_of_opcode_zero {cw wd : Word} (hop : cw.toNat / 2 ^ 56 = 0)
    (hlegal : (decode ⟨cw, wd⟩).instr? ≠ none) : cw = 0 := by
  obtain ⟨f, rfl⟩ : ∃ f : Fields, f.toWord = cw := ⟨_, Fields.toWord_ofWord cw⟩
  have hcw := Fields.toWord_toNat f
  have hop0 : f.op.toNat = 0 := by omega
  obtain ⟨hrsv, fmt, hmem, hin⟩ := (decode_toWord_instr?_ne_none f wd).mp hlegal
  obtain rfl := format_eq_z_of_0x00_mem_opcodes (hop0 ▸ hmem)
  obtain ⟨hrd, hra, hrb, hfn, himm⟩ := hin
  apply BitVec.eq_of_toNat_eq
  simp [hcw, hop0, hrsv, hrd, hra, hrb, hfn, himm]

/-! ### The bits and counters of one word (R31, R32) -/

theorem bitVal_word_bit (ws : List Word) (i : Nat) {b : Nat} (hb : b < 64) :
    bitVal ws (i * 64 + b) = (memRead ws i).getLsbD b := by
  have hword : (i * 64 + b) / 64 = i := by omega
  have hpos : (i * 64 + b) % 64 = b := by omega
  rw [bitVal_eq_getLsbD, hword, hpos]

theorem ctrVal_slot_counter (ws : List Word) (i : Nat) {p : Nat} (hp : p < 16) :
    ctrVal ws (16 * i + p) = (memRead ws i >>> ((15 - p) * 4)).toNat % 16 := by
  have hslot : (16 * i + p) / 16 = i := by omega
  have hpos : (16 * i + p) % 16 = p := by omega
  rw [ctrVal_eq_nibbleAt_toNat, hslot, hpos]
  simp [nibbleAt, nibbleShift, BitVec.extractLsb'_toNat]

/-! ### How the commands end -/

section
variable {s : State} {i : Nat}

theorem completes_bvRdw {rd : BvSel} (h : i < (s.mem.bv rd).length) :
    ∃ t, Completes (.bvRdw rd i) s (memRead (s.mem.bv rd) i) t ∧ SameHolders s t :=
  ⟨_, completes_of_respond (withIndex_of_lt h _ _), rfl⟩

theorem completes_bvWrw {rd : BvSel} (h : i < (s.mem.bv rd).length) (x : Word) :
    ∃ t, Completes (.bvWrw rd i x) s 0 t ∧ OnlyBv rd s t ∧ t.mem.bv rd = memWrite (s.mem.bv rd) i x :=
  completes_of_respond_setBv (withIndex_of_lt h _ _)

theorem completes_ssWr {rd : CvSel} (h : i < (s.mem.cv rd).length) (x : Word) :
    ∃ t, Completes (.ssWr rd i x) s 0 t ∧ OnlyCv rd s t ∧ t.mem.cv rd = memWrite (s.mem.cv rd) i x :=
  completes_of_respond_setCv (withIndex_of_lt h _ _)

end

/-! ### The obligations -/

/-- Settles O27: the words are those of before with word i replaced. -/
theorem bvWrwStoresTheWord : Obligations.BvWrwStoresTheWord := by
  intro s rd i x
  refine ⟨decode_cwImm_bvWrw rd x, fun hi => ?_, fails_of_withIndex rfl⟩
  obtain ⟨t, hc, honly, hws⟩ := completes_bvWrw hi x
  refine ⟨t, hc, honly, ?_⟩
  rw [hws]
  exact ⟨memWrite_length .., memRead_memWrite_same hi x, fun j hj => memRead_memWrite_ne _ hj x⟩

/-- Settles O28: the slots are those of before with slot i replaced, and its counters are its hex digits. -/
theorem ssWrStoresSixteenCounters : Obligations.SsWrStoresSixteenCounters := by
  intro s rd i x
  refine ⟨decode_cwImm_ssWr rd x, fun hi => ?_, fails_of_withIndex rfl⟩
  obtain ⟨t, hc, honly, hws⟩ := completes_ssWr hi x
  refine ⟨t, hc, honly, ?_⟩
  rw [hws]
  have hslot : memRead (memWrite (s.mem.cv rd) i x) i = x := memRead_memWrite_same hi x
  exact ⟨memWrite_length .., hslot, fun j hj => memRead_memWrite_ne _ hj x,
    fun p hp => by rw [ctrVal_slot_counter _ i hp, hslot]⟩

/-- Settles O25: `nop` has format Z, which fixes every bit, and only the response changes. -/
theorem nopDoesNothing : Obligations.NopDoesNothing := by
  refine ⟨decode_encodeWord Laws.EncodesToItsRow.nop rfl rfl, fun cw wd hop hne => ?_,
    fun s => ⟨_, completes_of_respond rfl, rfl⟩⟩
  by_contra hlegal
  exact hne (eq_zero_of_legal_of_opcode_zero hop hlegal)

/-- Settles O26: the answer is the word itself, bit b of which is bit `i * 64 + b` of the vector. -/
theorem bvRdwAnswersTheWord : Obligations.BvRdwAnswersTheWord := by
  intro s rd i
  refine ⟨fun wd hi => ?_, fun hi => ?_, fails_of_withIndex rfl⟩
  · exact decode_cwImm 0x17 rfl (Laws.EncodesToItsRow.bvRdw rd i) (decide_eq_true hi) rfl wd hi
  · obtain ⟨t, hc, hsame⟩ := completes_bvRdw hi
    exact ⟨t, _, hc, hsame, rfl, fun b hb => (bitVal_word_bit _ i hb).symm⟩

/-- Settles O45: ten fixed control words, decoded by evaluation. -/
theorem exampleWordsDecode : Obligations.ExampleWordsDecode := by
  unfold Obligations.ExampleWordsDecode
  decide

end Sys2Proof.Machine
end

section
/-! PROOFS, family 60_exceptions. The one check of each command, the four errors, and what a failure leaves
(spec/60_exceptions.md R160 to R170). -/

namespace Sys2Proof

/-! ### Rows and control words (R164) -/

theorem Row.accepts_eq_true_iff (r : Row) (cw : Word) : r.accepts cw = true ↔ cw &&& r.fmt.mask = r.matchWord :=
  beq_iff_eq

theorem Row.accepts_eq_false_iff (r : Row) (cw : Word) : r.accepts cw = false ↔ cw &&& r.fmt.mask ≠ r.matchWord :=
  beq_eq_false_iff_ne

end Sys2Proof

namespace Sys2Proof.Machine

/-! ### The one check of a command (R167) -/

/-- How a command ends whose check gives `check`: in that error with nothing but the response changed, else in a
success. -/
def EndsBy (check : Option Error) (s : State) (o : Host.Outcome State Fault Refusal) : Prop :=
  match check with
  | some e => o = raise e s
  | none => ∃ d w, o = respond d w

section
variable {s : State}

theorem endsBy_respond (d : Word) (w : State) : EndsBy none s (respond d w) := ⟨d, w, rfl⟩

theorem endsBy_withIndex (k limit : Nat) (d : Word) (w : State) :
    EndsBy (if k < limit then none else some .indexOutOfRange) s (withIndex k limit s (respond d w)) := by
  rcases Nat.lt_or_ge k limit with hk | hk
  · rw [if_pos hk, withIndex_of_lt hk]
    exact endsBy_respond d w
  · rw [if_neg (Nat.not_lt.mpr hk)]
    exact withIndex_of_le hk s _

theorem endsBy_withCapacity (n capacity : Nat) (d : Word) (w : State) :
    EndsBy (if n ≤ capacity then none else some .capacityExceeded) s (withCapacity n capacity s (respond d w)) := by
  rcases Nat.lt_or_ge capacity n with hn | hn
  · rw [if_neg (Nat.not_le.mpr hn)]
    exact withCapacity_of_lt hn s _
  · rw [if_pos hn, withCapacity_of_le hn]
    exact endsBy_respond d w

theorem endsBy_execBoolean (f : Word → Word → Word) (rd ra rb : BvSel) :
    EndsBy (if (s.mem.bv ra).length = (s.mem.bv rb).length then none else some .lengthMismatch) s
      (execBoolean f rd ra rb s) := by
  by_cases hlen : (s.mem.bv ra).length = (s.mem.bv rb).length
  · rw [if_pos hlen, execBoolean_of_eq f rd hlen]
    exact endsBy_respond _ _
  · rw [if_neg hlen]
    exact execBoolean_of_ne f rd hlen

/-- Every command ends as its row of R167's table says. -/
theorem exec_endsBy (i : Instr) (s : State) : EndsBy (checkError i s) s (exec i s) := by
  cases i with
  | nop | bvClear | bvIsEmpty | bvLen | ssSlotCount | ssClear | cvCounterCount | cvClear => exact endsBy_respond _ _
  | bvNew | bvFromElem | ssNew => exact endsBy_withCapacity _ _ _ _
  | bvSet | bvGet | bvRdw | bvWrw | ssGet | ssWr | cvGet | cvIncrement | cvDecrement => exact endsBy_withIndex _ _ _ _
  | bvOr | bvAnd | bvXor | bvNand | bvNor | bvXnor | bvDifference => exact endsBy_execBoolean _ _ _ _

/-! ### A command fails with one error or completes -/

variable {i : Instr} {e : Error}

theorem fails_of_checkError (h : checkError i s = some e) : Fails i s e := by
  have hends := exec_endsBy i s
  rwa [h] at hends

theorem completes_of_checkError_eq_none (h : checkError i s = none) : ∃ t d, Completes i s d t := by
  have hends := exec_endsBy i s
  rw [h] at hends
  obtain ⟨d, w, hexec⟩ := hends
  exact ⟨w.present (.ok d), d, hexec, rfl, (effect_of_exec hexec).host⟩

theorem not_completes_of_fails (hf : Fails i s e) {d : Word} {t : State} : ¬ Completes i s d t := by
  rintro ⟨ht, hrsp, -⟩
  cases hf.symm.trans ht
  cases hrsp

theorem fails_unique (hf : Fails i s e) {e' : Error} (hf' : Fails i s e') : e = e' := by
  cases hf.symm.trans hf'
  rfl

theorem fails_iff_checkError : Fails i s e ↔ checkError i s = some e := by
  refine ⟨fun hf => ?_, fails_of_checkError⟩
  cases hcheck : checkError i s with
  | none =>
    obtain ⟨t, d, ht⟩ := completes_of_checkError_eq_none hcheck
    exact absurd ht (not_completes_of_fails hf)
  | some e' => rw [fails_unique hf (fails_of_checkError hcheck)]

theorem completes_iff_checkError : (∃ t d, Completes i s d t) ↔ checkError i s = none := by
  refine ⟨fun ⟨t, d, ht⟩ => ?_, completes_of_checkError_eq_none⟩
  cases hcheck : checkError i s with
  | none => rfl
  | some e => exact absurd ht (not_completes_of_fails (fails_of_checkError hcheck))

/-- A count is refused exactly above the capacity it is compared with (R165). -/
theorem fails_capacityExceeded_iff {n capacity : Nat}
    (h : checkError i s = if n ≤ capacity then none else some .capacityExceeded) :
    Fails i s .capacityExceeded ↔ capacity < n := by
  rw [fails_iff_checkError, h]
  simp

/-! ### The lengths of the sources (R163) -/

/-- A boolean command fails with LengthMismatch or completes with data 0, as its source lengths decide. -/
theorem lengthMismatch_iff_of_execBoolean {f : Word → Word → Word} {rd ra rb : BvSel}
    (h : exec i s = execBoolean f rd ra rb s) :
    (Fails i s .lengthMismatch ↔ (s.mem.bv ra).length ≠ (s.mem.bv rb).length) ∧
    ((s.mem.bv ra).length = (s.mem.bv rb).length ↔ ∃ t, Completes i s 0 t) := by
  have hfails (hne : (s.mem.bv ra).length ≠ (s.mem.bv rb).length) : Fails i s .lengthMismatch :=
    h.trans (execBoolean_of_ne f rd hne)
  have hcompletes (hlen : (s.mem.bv ra).length = (s.mem.bv rb).length) : ∃ t, Completes i s 0 t := by
    obtain ⟨t, ht, -⟩ := completes_of_execBoolean h hlen
    exact ⟨t, ht⟩
  refine ⟨⟨fun hf hlen => ?_, hfails⟩, hcompletes, fun ⟨t, ht⟩ => ?_⟩
  · obtain ⟨t, ht⟩ := hcompletes hlen
    exact not_completes_of_fails hf ht
  · by_contra hne
    exact not_completes_of_fails (hfails hne) ht

end

/-! ### Responses at the port (R160, R161) -/

theorem rspStatus_of_rsp {t : State} {r : Response} (h : t.rsp = some r) : t.rspStatus = some r.status := by
  simp [State.rspStatus, h]

theorem rspData_of_rsp {t : State} {r : Response} (h : t.rsp = some r) : t.rspData = some r.data := by
  simp [State.rspData, h]

theorem cmdReady_takeResponse (t : State) : t.takeResponse.cmdReady = true := by
  simp [State.cmdReady]

/-- `runCommand_effect`, for an outcome already at hand. -/
theorem commandEffect_of_runCommand {c : Command} {s t : State} (h : runCommand c s = .next t) :
    CommandEffect s t := by
  obtain ⟨u, hu, he⟩ := runCommand_effect c s
  cases h.symm.trans hu
  exact he

/-! ### The obligations -/

/-- Settles O30: the command ends as its check says, and each of the two ends is a next state with its response. -/
theorem eachCommandHasItsOneCheck : Obligations.EachCommandHasItsOneCheck := by
  intro i s
  cases hcheck : checkError i s with
  | none =>
    obtain ⟨t, d, hexec, hrsp, -⟩ := completes_of_checkError_eq_none hcheck
    exact ⟨t, hexec, .inr ⟨rfl, d, hrsp⟩⟩
  | some e => exact ⟨_, fails_of_checkError hcheck, .inl ⟨e, rfl, rfl⟩⟩

/-- Settles O31: the nine rows of R167's table compare the index with the limit listed beside the command. -/
theorem indexOutOfRangeExactly : Obligations.IndexOutOfRangeExactly := by
  intro s v c k x p hp
  have hcheck : checkError p.1 s = if k < p.2 then none else some .indexOutOfRange := by
    revert p
    simp only [List.forall_mem_cons]
    exact ⟨rfl, rfl, rfl, rfl, rfl, rfl, rfl, rfl, rfl, by simp⟩
  rw [fails_iff_checkError, completes_iff_checkError, hcheck]
  simp

/-- Settles O33: all seven execute as `execBoolean`. -/
theorem lengthMismatchExactly : Obligations.LengthMismatchExactly := by
  intro s rd ra rb
  simp only [List.forall_mem_cons]
  exact ⟨lengthMismatch_iff_of_execBoolean (isBoolean_bvOr.exec_eq ..),
    lengthMismatch_iff_of_execBoolean (isBoolean_bvAnd.exec_eq ..),
    lengthMismatch_iff_of_execBoolean (isBoolean_bvXor.exec_eq ..),
    lengthMismatch_iff_of_execBoolean (isBoolean_bvNand.exec_eq ..),
    lengthMismatch_iff_of_execBoolean (isBoolean_bvNor.exec_eq ..),
    lengthMismatch_iff_of_execBoolean (isBoolean_bvXnor.exec_eq ..),
    lengthMismatch_iff_of_execBoolean (isBoolean_bvDifference.exec_eq ..), by simp⟩

/-- Settles O34: a row that accepts the control word decodes it, and with none decoding finds no command. -/
theorem illegalCommandDependsOnCwAlone : Obligations.IllegalCommandDependsOnCwAlone := by
  refine fun cw => ⟨fun hno wd s => ⟨?_, rfl, rfl⟩, fun ⟨r, hr, hmatch⟩ wd => ?_⟩
  · have hillegal : (decode ⟨cw, wd⟩).instr? = none :=
      (decode_instr?_eq_none _).mpr fun r hr => (Row.accepts_eq_false_iff r cw).mpr (hno r hr)
    exact runCommand_of_instr?_eq_none hillegal s
  · have hlegal := decode_of_accepts (c := ⟨cw, wd⟩) hr ((Row.accepts_eq_true_iff r cw).mpr hmatch)
    exact ⟨_, hlegal, runCommand_legal hlegal⟩

/-- Settles O36: part of the effect every command has at the port; taking a response changes no holder. -/
theorem failedCommandChangesNothing : Obligations.FailedCommandChangesNothing := by
  intro c s t e h hrsp
  have heffect := commandEffect_of_runCommand h
  have hsame : SameHolders s t := heffect.failed e hrsp
  exact ⟨hsame, heffect.host, rspData_of_rsp hrsp, cmdReady_takeResponse t, t.takeResponse_mem.trans hsame⟩

/-- Settles O37: the response a command leaves is a success or one of the four errors. -/
theorem statusCodesAreFive : Obligations.StatusCodesAreFive := by
  intro c s t h
  obtain ⟨r, hr⟩ := (commandEffect_of_runCommand h).response
  refine ⟨r, hr, ?_⟩
  cases r with
  | ok d => exact .inl ⟨d, rfl, rfl, rfl⟩
  | error e =>
    right
    cases e with
    | indexOutOfRange => exact .inl ⟨rfl, rfl, rfl⟩
    | lengthMismatch => exact .inr (.inl ⟨rfl, rfl, rfl⟩)
    | illegalCommand => exact .inr (.inr (.inl ⟨rfl, rfl, rfl⟩))
    | capacityExceeded => exact .inr (.inr (.inr ⟨rfl, rfl, rfl⟩))

/-- Settles O24: at its bound the transform leaves the slot unchanged, and the uncommitted answer is a success. -/
theorem saturationIsNotAnError : Obligations.SaturationIsNotAnError := by
  intro s rd k hk i hi hmax hzero
  have hc : ∃ t, Completes i s 0 t ∧ SameHolders s t := by
    obtain rfl | rfl : i = .cvIncrement rd k ∨ i = .cvDecrement rd k := by simpa using hi
    · exact completes_cvIncrement_of_max hk (hmax rfl)
    · exact completes_cvDecrement_of_zero hk (hzero rfl)
  obtain ⟨t, ⟨hexec, hrsp, hhost⟩, hsame⟩ := hc
  exact ⟨t, hexec, rspStatus_of_rsp hrsp, rspData_of_rsp hrsp, hsame, hhost⟩

/-- Settles O32: the check of each construction compares the count with the capacity of its kind of holder. -/
theorem capacityExceededExactly : Obligations.CapacityExceededExactly := by
  intro s v c n bit
  exact ⟨fails_capacityExceeded_iff rfl, fails_capacityExceeded_iff rfl, fails_capacityExceeded_iff rfl⟩

end Sys2Proof.Machine
end

section
/-! PROOFS, family 70_reset_and_hazards. What a step keeps, and what alone can change a holder
(spec/70_reset_and_hazards.md R191; spec/10_state.md R20). -/

namespace Sys2Proof.Machine

section
variable {s t : State}

/-- No step writes the parameters (R20). -/
theorem params_of_step (h : step s = .next t) : t.params = s.params := by
  obtain ⟨-, hstep⟩ | ⟨rest, -, hstep⟩ | ⟨rest, -, hstep⟩ | ⟨c, rest, u, -, -, hstep, heffect⟩ := step_cases s <;>
    cases h.symm.trans hstep
  · rfl
  · exact State.takeResponse_params _
  · exact State.resetBlock_params _
  · obtain ⟨hparams, -, -⟩ := heffect.host
    exact hparams

/-- A step that changes a holder is a reset or runs a command. -/
theorem nextInput_of_not_sameHolders (h : step s = .next t) (hne : ¬ SameHolders s t) :
    ∃ i rest, nextInput s.cmdReady s.inputs = some (i, rest) ∧ (i = .reset ∨ ∃ c, i = .command c) := by
  obtain ⟨-, hstep⟩ | ⟨rest, -, hstep⟩ | ⟨rest, hnext, -⟩ | ⟨c, rest, -, hnext, -⟩ := step_cases s
  · cases h.symm.trans hstep
    exact absurd rfl hne
  · cases h.symm.trans hstep
    exact absurd (State.takeResponse_mem _) hne
  · exact ⟨_, rest, hnext, .inl rfl⟩
  · exact ⟨_, rest, hnext, .inr ⟨c, rfl⟩⟩

end

/-- Settles O42: a holder is changed only by a reset or a command whose turn it is; with no input, or with the taking
of a response first, neither has its turn; a command has none while a response is pending, and a reset then only
behind nothing but commands. -/
theorem parametersAreNeverWritten : Obligations.ParametersAreNeverWritten := by
  intro s t h
  refine ⟨params_of_step h, fun hinputs => by_contra fun hne => ?_⟩
  obtain ⟨i, rest, hnext, hi⟩ := nextInput_of_not_sameHolders h hne
  rcases hinputs with hnone | htake | ⟨hbusy, hnoReset⟩
  · simp [List.head?_eq_none_iff.mp hnone, nextInput] at hnext
  · obtain ⟨is, his⟩ := List.head?_eq_some_iff.mp htake
    simp only [his, nextInput, Option.some.injEq, Prod.mk.injEq] at hnext
    obtain ⟨rfl, -⟩ := hnext
    simp at hi
  · rcases hi with rfl | ⟨c, rfl⟩
    · obtain ⟨cs, rest', his⟩ := inputs_of_nextInput_reset hnext
      exact hnoReset cs rest' his
    · have hready : s.cmdReady = true := ready_of_nextInput hnext
      simp [hbusy] at hready

end Sys2Proof.Machine
end

section
/-! PROOFS, family other, encoding. Encoding and decoding are inverse to each other, and the rows of the opcode map are
pairwise exclusive (spec/30_encoding.md R52 to R55). -/

namespace Sys2Proof

/-! ### The command a row builds, encoded again (R52, R53, R54) -/

/-- The control word of a format, from the operands that the fields hold in it. -/
def Format.wordOf (fmt : Format) (op : BitVec 8) (f : Fields) : Word :=
  match fmt with
  | .z => Fields.toWord ⟨op, 0, 0, 0, 0, 0, 0⟩
  | .bt => wordBt op (.ofField f.rd)
  | .bti => wordBti op (.ofField f.rd) f.imm.toNat
  | .btif => wordBtif op (.ofField f.rd) f.imm.toNat (f.fn.getLsbD 0)
  | .br3 => wordBr3 op (.ofField f.rd) (.ofField f.ra) (.ofField f.rb)
  | .ct => wordCt op (.ofField f.rd)
  | .cti => wordCti op (.ofField f.rd) f.imm.toNat

theorem setWidth_ofBool_of_and_0xE : ∀ f : BitVec 4, f &&& 0xE = 0 → (BitVec.ofBool f[0]).setWidth 4 = f := by decide

/-- A row ignores no bit: what it accepts is the word of its format with the operands read from the fields. -/
theorem Row.toWord_eq_wordOf_of_accepts {r : Row} {f : Fields} (h : r.accepts f.toWord = true) :
    f.toWord = r.fmt.wordOf r.op f := by
  have hzero {n : Nat} {x : BitVec n} (hx : x &&& BitVec.allOnes n = 0) : x = 0 := by rwa [BitVec.and_allOnes] at hx
  rw [Row.accepts_iff, Fields.ofWord_toWord] at h
  obtain ⟨op, fmt, build⟩ := r
  obtain ⟨fop, rd, ra, rb, fn, rsv, imm⟩ := f
  obtain ⟨rfl, hrd, hra, hrb, hfn, hrsv, himm⟩ := h
  obtain rfl : rsv = 0 := by cases fmt <;> exact hzero hrsv
  cases fmt with
  | z =>
    obtain ⟨rfl, rfl, rfl, rfl, rfl⟩ : rd = 0 ∧ ra = 0 ∧ rb = 0 ∧ fn = 0 ∧ imm = 0 :=
      ⟨hzero hrd, hzero hra, hzero hrb, hzero hfn, hzero himm⟩
    rfl
  | bt =>
    obtain ⟨rfl, rfl, rfl, rfl⟩ : ra = 0 ∧ rb = 0 ∧ fn = 0 ∧ imm = 0 :=
      ⟨hzero hra, hzero hrb, hzero hfn, hzero himm⟩
    simp [Format.wordOf, wordBt, BvSel.toField_ofField hrd]
  | bti =>
    obtain ⟨rfl, rfl, rfl⟩ : ra = 0 ∧ rb = 0 ∧ fn = 0 := ⟨hzero hra, hzero hrb, hzero hfn⟩
    simp [Format.wordOf, wordBti, BvSel.toField_ofField hrd]
  | btif =>
    obtain ⟨rfl, rfl⟩ : ra = 0 ∧ rb = 0 := ⟨hzero hra, hzero hrb⟩
    simp [Format.wordOf, wordBtif, BvSel.toField_ofField hrd, setWidth_ofBool_of_and_0xE fn hfn]
  | br3 =>
    obtain ⟨rfl, rfl⟩ : fn = 0 ∧ imm = 0 := ⟨hzero hfn, hzero himm⟩
    simp [Format.wordOf, wordBr3, BvSel.toField_ofField hrd, BvSel.toField_ofField hra, BvSel.toField_ofField hrb]
  | ct =>
    obtain ⟨rfl, rfl, rfl, rfl⟩ : ra = 0 ∧ rb = 0 ∧ fn = 0 ∧ imm = 0 :=
      ⟨hzero hra, hzero hrb, hzero hfn, hzero himm⟩
    simp [Format.wordOf, wordCt, CvSel.toField_ofField hrd]
  | cti =>
    obtain ⟨rfl, rfl, rfl⟩ : ra = 0 ∧ rb = 0 ∧ fn = 0 := ⟨hzero hra, hzero hrb, hzero hfn⟩
    simp [Format.wordOf, wordCti, CvSel.toField_ofField hrd]

theorem Fields.toWord_zero : Fields.toWord ⟨0#8, 0#4, 0#4, 0#4, 0#4, 0#8, 0#32⟩ = 0#64 := rfl

theorem immFits_toNat (x : BitVec 32) : immFits x.toNat = true := decide_eq_true x.isLt

/-- The encoder writes the word of the row's format for the command the row builds, which is well formed. -/
theorem encodeWord_build : ∀ r ∈ opcodeMap, ∀ (f : Fields) (wd : Word),
    (r.build f wd).wellFormed = true ∧ encodeWord (r.build f wd) = r.fmt.wordOf r.op f := by
  simp [opcodeMap, systemRows, bitVectorRows, booleanRows, slotStorageRows, countingVectorRows, Instr.wellFormed,
    immFits_toNat, Fields.toWord_zero, encodeWord, Format.wordOf]

theorem encodeWd_withWd {i : Instr} (h : i.usesWd = true) (x : Word) : encodeWd (i.withWd x) = x := by
  cases i with
  | bvWrw | ssWr => rfl
  | _ => cases h

/-- Every command, encoded, is accepted by its row. -/
theorem encodesToItsRow (i : Instr) : Laws.EncodesToItsRow.Statement i :=
  match i with
  | .nop => Laws.EncodesToItsRow.nop
  | .bvNew rd n => Laws.EncodesToItsRow.bvNew rd n
  | .bvFromElem rd n bit => Laws.EncodesToItsRow.bvFromElem rd n bit
  | .bvSet rd k => Laws.EncodesToItsRow.bvSet rd k
  | .bvGet rd k => Laws.EncodesToItsRow.bvGet rd k
  | .bvClear rd => Laws.EncodesToItsRow.bvClear rd
  | .bvIsEmpty rd => Laws.EncodesToItsRow.bvIsEmpty rd
  | .bvLen rd => Laws.EncodesToItsRow.bvLen rd
  | .bvRdw rd k => Laws.EncodesToItsRow.bvRdw rd k
  | .bvWrw rd k x => Laws.EncodesToItsRow.bvWrw rd k x
  | .bvOr rd ra rb => Laws.EncodesToItsRow.bvOr rd ra rb
  | .bvAnd rd ra rb => Laws.EncodesToItsRow.bvAnd rd ra rb
  | .bvXor rd ra rb => Laws.EncodesToItsRow.bvXor rd ra rb
  | .bvNand rd ra rb => Laws.EncodesToItsRow.bvNand rd ra rb
  | .bvNor rd ra rb => Laws.EncodesToItsRow.bvNor rd ra rb
  | .bvXnor rd ra rb => Laws.EncodesToItsRow.bvXnor rd ra rb
  | .bvDifference rd ra rb => Laws.EncodesToItsRow.bvDifference rd ra rb
  | .ssNew rd n => Laws.EncodesToItsRow.ssNew rd n
  | .ssGet rd k => Laws.EncodesToItsRow.ssGet rd k
  | .ssSlotCount rd => Laws.EncodesToItsRow.ssSlotCount rd
  | .ssClear rd => Laws.EncodesToItsRow.ssClear rd
  | .ssWr rd k x => Laws.EncodesToItsRow.ssWr rd k x
  | .cvCounterCount rd => Laws.EncodesToItsRow.cvCounterCount rd
  | .cvGet rd k => Laws.EncodesToItsRow.cvGet rd k
  | .cvIncrement rd k => Laws.EncodesToItsRow.cvIncrement rd k
  | .cvDecrement rd k => Laws.EncodesToItsRow.cvDecrement rd k
  | .cvClear rd => Laws.EncodesToItsRow.cvClear rd

/-! ### The obligations -/

/-- Settles O46: the encoder's word is accepted by the command's row, which builds the command again. -/
theorem decodeInvertsEncode : Obligations.DecodeInvertsEncode := by
  intro i hwf
  exact Machine.decode_encode_of_row (encodesToItsRow i) hwf

/-- Settles O47: the row that accepts the control word fixes every bit that is not an operand. -/
theorem encodeInvertsDecode : Obligations.EncodeInvertsDecode := by
  intro c i h
  have hwd : i.withWd c.wd = i := withWd_eq_self_of_decode h
  obtain ⟨r, hr, haccepts, rfl⟩ := accepts_of_decode h
  obtain ⟨hwf, hcw⟩ := encodeWord_build r hr (Fields.ofWord c.cw) c.wd
  rw [← Fields.toWord_ofWord c.cw] at haccepts
  refine ⟨hwf, ?_, fun huses => ?_⟩
  · calc encodeWord (r.build (Fields.ofWord c.cw) c.wd)
        = r.fmt.wordOf r.op (Fields.ofWord c.cw) := hcw
      _ = (Fields.ofWord c.cw).toWord := (Row.toWord_eq_wordOf_of_accepts haccepts).symm
      _ = c.cw := Fields.toWord_ofWord c.cw
  · exact (congrArg encodeWd hwd).symm.trans (encodeWd_withWd huses c.wd)

/-- Settles O44: a control word has one opcode, and no two rows share one. -/
theorem opcodeRowsAreExclusive : Obligations.OpcodeRowsAreExclusive := by
  refine ⟨rfl, (List.pairwise_map.mp opcodeMap_ops_nodup).imp fun hne cw ⟨ha, ha'⟩ => hne ?_⟩
  exact (Row.op_of_accepts ha).symm.trans (Row.op_of_accepts ha')

end Sys2Proof
end

section
/-! PROOFS, family other, holders. Equal selectors, the lanes of a counter command, restoring a holder from its words,
and who changes a length (spec/41_bit_vector_boolean.md section 1, spec/43_counting_vector.md R133,
spec/44_host_access.md R150, spec/10_state.md R12). -/

namespace Sys2Proof.Machine

/-! ### Equal selectors (R91) -/

/-- Word i of a boolean command combines the old words i of its sources, which its destination may be one of. -/
theorem memRead_of_execBoolean {c : Instr} {s : State} {f : Word → Word → Word} {rd ra rb : BvSel}
    (h : exec c s = execBoolean f rd ra rb s) (hlen : (s.mem.bv ra).length = (s.mem.bv rb).length) {i : Nat}
    (hi : i < (s.mem.bv ra).length) :
    ∃ t, exec c s = .next t ∧
      memRead (t.mem.bv rd) i = f (memRead (s.mem.bv ra) i) (memRead (s.mem.bv rb) i) := by
  obtain ⟨t, ⟨ht, -, -⟩, -, hws⟩ := completes_of_execBoolean h hlen
  exact ⟨t, ht, by rw [hws, memRead_combine f hlen hi]⟩

/-- Word i of a boolean command with equal sources is the diagonal of its word function at the old word i. -/
theorem memRead_of_execBoolean_self {c : Instr} {s : State} {f : Word → Word → Word} {rd ra : BvSel}
    (h : exec c s = execBoolean f rd ra ra s) {g : Word → Word} (hg : ∀ x, f x x = g x) {i : Nat}
    (hi : i < (s.mem.bv ra).length) :
    ∃ t, exec c s = .next t ∧ memRead (t.mem.bv rd) i = g (memRead (s.mem.bv ra) i) := by
  obtain ⟨t, ht, hread⟩ := memRead_of_execBoolean h rfl hi
  exact ⟨t, ht, hread.trans (hg _)⟩

/-! ### Lane independence (R133) -/

/-- The transform answers "unchanged" or the slot word with the nibble at its position replaced. -/
def ReplacesItsNibble (f : Nat → Word → Candidate) : Prop :=
  ∀ p x, f p x = .unchanged ∨ ∃ v, f p x = .replace (withNibble p v x)

theorem replacesItsNibble_incT : ReplacesItsNibble incT := by
  intro p x
  by_cases h : nibbleAt p x = 15#4
  · exact .inl (incT_of_max h)
  · exact .inr ⟨_, incT_of_not_max h⟩

theorem replacesItsNibble_decT : ReplacesItsNibble decT := by
  intro p x
  by_cases h : nibbleAt p x = 0#4
  · exact .inl (decT_of_zero h)
  · exact .inr ⟨_, decT_of_not_zero h⟩

/-- A counter command leaves the memory alone or replaces the counter at its index, which is then in range. -/
theorem mem_of_execCounter_replacesItsNibble {f : Nat → Word → Candidate} (hf : ReplacesItsNibble f) {s t : State}
    {rd : CvSel} {k : Nat} (h : execCounter f rd k s = .next t) :
    t.mem = s.mem ∨
      (k < (s.mem.cv rd).length * 16 ∧ ∃ v, t.mem = s.mem.setCv rd (withCounter (s.mem.cv rd) k v)) := by
  rcases execCounter_cases f rd k s with ⟨-, he⟩ | ⟨hk, y, hy, he⟩ | ⟨-, -, he⟩
  · exact .inl (mem_of_raise (he.symm.trans h))
  · rcases hf (nibblePos k) (memRead (s.mem.cv rd) (counterSlot k)) with hsame | ⟨v, hv⟩
    · cases hsame.symm.trans hy
    · cases hv.symm.trans hy
      exact .inr ⟨hk, v, mem_of_respond (he.symm.trans h)⟩
  · exact .inl (mem_of_respond (he.symm.trans h))

/-- Outside the field mask of the counter's position its slot keeps every bit. -/
theorem memRead_withCounter_outside {ws : List Word} {k : Nat} (h : k < ws.length * 16) (v : Nibble) :
    memRead (withCounter ws k v) (k / 16) &&& ~~~fieldMask (k % 16) = memRead ws (k / 16) &&& ~~~fieldMask (k % 16) := by
  rw [memRead_withCounter_same h, withNibble_outside]

/-! ### Restoring a holder from its words (R150)

Both kinds of holder are restored in one way: a construction, then one raw write for each word. -/

theorem onlyBv_refl (v : BvSel) (s : State) : OnlyBv v s s := ⟨fun _ _ => rfl, fun _ => rfl⟩

theorem onlyBv_trans {v : BvSel} {s t u : State} (h : OnlyBv v s t) (h' : OnlyBv v t u) : OnlyBv v s u := by
  obtain ⟨hbv, hcv⟩ := h
  obtain ⟨hbv', hcv'⟩ := h'
  exact ⟨fun w hw => (hbv' w hw).trans (hbv w hw), fun c => (hcv' c).trans (hcv c)⟩

theorem onlyCv_refl (c : CvSel) (s : State) : OnlyCv c s s := ⟨fun _ => rfl, fun _ _ => rfl⟩

theorem onlyCv_trans {c : CvSel} {s t u : State} (h : OnlyCv c s t) (h' : OnlyCv c t u) : OnlyCv c s u := by
  obtain ⟨hbv, hcv⟩ := h
  obtain ⟨hbv', hcv'⟩ := h'
  exact ⟨fun v => (hbv' v).trans (hbv v), fun d hd => (hcv' d hd).trans (hcv d hd)⟩

/-- The raw write `wr i x` stores x as word i of a holder and changes nothing outside it, as the frame `Only` says. -/
structure StoresWord (wr : Nat → Word → Instr) (holder : State → List Word) (Only : State → State → Prop) : Prop where
  refl : ∀ s, Only s s
  trans : ∀ {s t u}, Only s t → Only t u → Only s u
  store : ∀ (s : State) (i : Nat) (x : Word), i < (holder s).length →
    ∃ t, Completes (wr i x) s 0 t ∧ Only s t ∧ holder t = memWrite (holder s) i x

theorem storesWord_bvWrw (v : BvSel) : StoresWord (.bvWrw v) (·.mem.bv v) (OnlyBv v) where
  refl := onlyBv_refl v
  trans := onlyBv_trans
  store _ _ x hi := completes_bvWrw hi x

theorem storesWord_ssWr (c : CvSel) : StoresWord (.ssWr c) (·.mem.cv c) (OnlyCv c) where
  refl := onlyCv_refl c
  trans := onlyCv_trans
  store _ _ x hi := completes_ssWr hi x

section
variable {wr : Nat → Word → Instr} {holder : State → List Word} {Only : State → State → Prop}

/-- Writing the words of `ws` at the indices `is`: those words are then in the holder, the others as they were. -/
theorem StoresWord.execSeq_writes (h : StoresWord wr holder Only) (ws : List Word) (is : List Nat) {s : State}
    (his : ∀ i ∈ is, i < (holder s).length) :
    ∃ t, execSeq (is.map fun i => wr i (memRead ws i)) s = some (t, List.replicate is.length (some (.ok 0))) ∧
      Only s t ∧ (holder t).length = (holder s).length ∧
      ∀ j, memRead (holder t) j = if j ∈ is then memRead ws j else memRead (holder s) j := by
  induction is generalizing s with
  | nil => exact ⟨s, rfl, h.refl s, rfl, by simp⟩
  | cons i is ih =>
    obtain ⟨hi, his⟩ := List.forall_mem_cons.mp his
    obtain ⟨t, ⟨ht, hrsp, -⟩, honly, hws⟩ := h.store s i (memRead ws i) hi
    have hlen : (holder t).length = (holder s).length := by rw [hws, memWrite_length]
    obtain ⟨u, hu, honly', hlen', hread⟩ := ih (s := t) (hlen.symm ▸ his)
    refine ⟨u, (execSeq_cons ht hu).trans (by rw [hrsp]; rfl), h.trans honly honly', hlen'.trans hlen, fun j => ?_⟩
    rw [hread, hws]
    by_cases hj : j = i
    · simp [hj, memRead_memWrite_same hi]
    · simp [hj, memRead_memWrite_ne]

/-- A construction of as many words as `ws` has, and then a write of each word, leave `ws` in the holder. -/
theorem StoresWord.execSeq_restore (h : StoresWord wr holder Only) {new : Instr} {ws : List Word} {s t : State}
    (hnew : Completes new s 0 t) (honly : Only s t) (hlen : (holder t).length = ws.length) :
    ∃ u rs, execSeq (new :: (List.range ws.length).map fun i => wr i (memRead ws i)) s = some (u, rs) ∧
      holder u = ws ∧ Only s u ∧ rs = List.replicate (ws.length + 1) (some (.ok 0)) := by
  obtain ⟨ht, hrsp, -⟩ := hnew
  obtain ⟨u, hu, honly', hlen', hread⟩ :=
    h.execSeq_writes ws (List.range ws.length) (s := t) (by simp [hlen])
  have hlength := hlen'.trans hlen
  refine ⟨u, _, execSeq_cons ht hu, ext_memRead hlength fun i hi => ?_, h.trans honly honly', ?_⟩
  · rw [hread, if_pos (List.mem_range.mpr (hlength ▸ hi))]
  · rw [hrsp, List.length_range, List.replicate_succ]

end

/-! ### Who changes a length (R12) -/

/-- A command that constructs another holder, or none, keeps the length: it does not write the holder, or it writes as
many words as there were. -/
theorem bv_length_of_exec {i : Instr} {s t : State} (h : exec i s = .next t) {v : BvSel} (hv : constructsBv i ≠ some v) :
    (t.mem.bv v).length = (s.mem.bv v).length := by
  by_cases htarget : target i = some (.inl v)
  · cases i with
    | bvNew | bvFromElem | bvOr | bvAnd | bvXor | bvNand | bvNor | bvXnor | bvDifference =>
      cases htarget
      exact absurd rfl hv
    | bvGet | bvIsEmpty | bvLen | bvRdw =>
      have hmem : t.mem = s.mem := sameHolders_of_readsOnly rfl h
      rw [hmem]
    | bvClear rd =>
      cases htarget
      rw [mem_of_respond h]
      simp
    | bvSet rd k | bvWrw rd k =>
      cases htarget
      rcases mem_of_withIndex h with hmem | hmem
      · rw [hmem]
      · simp [hmem]
    | _ => cases htarget
  · rw [(effect_of_exec h).bvFrame v htarget]

/-! ### The obligations -/

/-- Settles O11: both sources are read before the destination is replaced, so each result is its word function's
diagonal at the old word, and difference into its second source combines the old words. -/
theorem equalSelectorsReadTheOldWords : Obligations.EqualSelectorsReadTheOldWords := by
  intro s rd ra i hi
  have hor (x : Word) : wordOr x x = x := BitVec.or_self
  have hand (x : Word) : wordAnd x x = x := BitVec.and_self
  have hxor (x : Word) : wordXor x x = 0 := BitVec.xor_self
  have hnor (x : Word) : wordNor x x = ~~~x := congrArg (~~~ ·) (hor x)
  have hxnor (x : Word) : wordXnor x x = 0xFFFFFFFFFFFFFFFF#64 := congrArg (~~~ ·) (hxor x)
  have hdifference (x : Word) : wordDifference x x = 0 := by simp [wordDifference]
  exact ⟨memRead_of_execBoolean_self (isBoolean_bvOr.exec_eq ..) hor hi,
    memRead_of_execBoolean_self (isBoolean_bvAnd.exec_eq ..) hand hi,
    memRead_of_execBoolean_self (isBoolean_bvXor.exec_eq ..) hxor hi,
    memRead_of_execBoolean_self (isBoolean_bvNand.exec_eq ..) wordNand_self hi,
    memRead_of_execBoolean_self (isBoolean_bvNor.exec_eq ..) hnor hi,
    memRead_of_execBoolean_self (isBoolean_bvXnor.exec_eq ..) hxnor hi,
    memRead_of_execBoolean_self (isBoolean_bvDifference.exec_eq ..) hdifference hi,
    fun rb hlen => memRead_of_execBoolean (isBoolean_bvDifference.exec_eq ..) hlen.symm hi⟩

/-- Settles O23: both commands replace at most the counter at their index, which is four bits of its slot. -/
theorem counterLanesAreIndependent : Obligations.CounterLanesAreIndependent := by
  intro s t rd i h
  have hmem : t.mem = s.mem ∨
      (i < (s.mem.cv rd).length * 16 ∧ ∃ v, t.mem = s.mem.setCv rd (withCounter (s.mem.cv rd) i v)) := by
    rcases h with h | h
    · exact mem_of_execCounter_replacesItsNibble replacesItsNibble_incT h
    · exact mem_of_execCounter_replacesItsNibble replacesItsNibble_decT h
  rcases hmem with hsame | ⟨hi, v, hmem⟩
  · rw [hsame]
    exact ⟨fun _ _ _ => rfl, fun _ _ _ => rfl, rfl⟩
  · rw [hmem]
    refine ⟨fun c j hcj => ?_, fun c a hca => ?_, ?_⟩
    · by_cases hc : c = rd
      · subst hc
        rw [Memory.cv_setCv_same, ctrVal_withCounter_ne hi v (hcj.resolve_left (· rfl))]
      · rw [Memory.cv_setCv_ne _ _ hc]
    · by_cases hc : c = rd
      · subst hc
        rw [Memory.cv_setCv_same, memRead_withCounter_ne v (hca.resolve_left (· rfl))]
      · rw [Memory.cv_setCv_ne _ _ hc]
    · rw [Memory.cv_setCv_same]
      exact memRead_withCounter_outside hi v

/-- Settles O29: within the capacity the construction completes, and each write is then in range. -/
theorem restoreRebuildsTheVector : Obligations.RestoreRebuildsTheVector := by
  refine ⟨fun s v ws hcap => ?_, fun s c ws hcap => ?_⟩
  · obtain ⟨t, hnew, honly, hzeros⟩ := completes_bvNew (rd := v) hcap
    exact (storesWord_bvWrw v).execSeq_restore hnew honly (by simp [hzeros])
  · obtain ⟨t, hnew, honly, hzeros⟩ := completes_ssNew (rd := c) hcap
    exact (storesWord_ssWr c).execSeq_restore hnew honly (by simp [hzeros])

/-- Settles O39: a command that does not construct the holder keeps its length. -/
theorem onlyConstructionsChangeALength : Obligations.OnlyConstructionsChangeALength := by
  refine fun i s t h => ⟨fun v hne => ?_, fun c hne => ?_⟩
  · by_contra hv
    exact hne (bv_length_of_exec h hv)
  · by_contra hc
    exact hne (cv_length_of_exec h hc)

end Sys2Proof.Machine
end

section
/-! PROOFS, family other, steps. What a step answers and keeps, the port while a command waits, and a run as the fold of
its commands (spec/30_encoding.md R51, spec/70_reset_and_hazards.md R185, R192, R196, spec/20_memory.md R40). -/

namespace Sys2Proof.Machine

/-! ### The response port (R51) -/

section
variable {s : State}

theorem cmdReady_eq_true_iff : s.cmdReady = true ↔ s.rsp = none := Option.isNone_iff_eq_none

theorem cmdReady_eq_false_iff : s.cmdReady = false ↔ ∃ r, s.rsp = some r := by
  rw [State.cmdReady, Option.isNone_eq_false_iff, Option.isSome_iff_exists]

theorem takeResponse_of_some {r : Response} (h : s.rsp = some r) :
    s.takeResponse = { s with rsp := none, taken := s.taken ++ [r] } := by
  simp [State.takeResponse, h]

/-- A reset has its turn as the first input, and behind commands while they wait. -/
theorem step_reset_of_turn {cs : List Command} {rest : List HostInput}
    (h : s.inputs = cs.map .command ++ .reset :: rest) (hturn : cs = [] ∨ s.cmdReady = false) :
    step s = .next (s.withInputs (cs.map .command ++ rest)).resetBlock := by
  rcases hturn with rfl | hbusy
  · exact step_reset h
  · obtain ⟨r, hr⟩ := cmdReady_eq_false_iff.mp hbusy
    exact step_reset_behind h hr

end

/-! ### Every step answers, and keeps the invariant (R192, R10) -/

theorem exists_next_of_step (s : State) : ∃ t, step s = .next t := by
  obtain ⟨-, hstep⟩ | ⟨rest, -, hstep⟩ | ⟨rest, -, hstep⟩ | ⟨c, rest, t, -, -, hstep, -⟩ := step_cases s <;>
    exact ⟨_, hstep⟩

/-- Holders within their capacity stay so: emptied, untouched, or left by a command. -/
theorem wf_of_step {s t : State} (h : step s = .next t) (hwf : s.mem.wf s.params = true) :
    t.mem.wf s.params = true := by
  obtain ⟨-, hstep⟩ | ⟨rest, -, hstep⟩ | ⟨rest, -, hstep⟩ | ⟨c, rest, u, -, -, hstep, heffect⟩ := step_cases s <;>
    cases h.symm.trans hstep
  · exact hwf
  · rwa [State.takeResponse_mem]
  · exact Memory.wf_empty _
  · exact heffect.capacity hwf

theorem inv_of_step {s t : State} (h : step s = .next t) (hs : s.Inv) : t.Inv := by
  obtain ⟨hlegal, hwf⟩ := hs
  rw [State.Inv, params_of_step h]
  exact ⟨hlegal, wf_of_step h hwf⟩

/-! ### Several steps (R40) -/

theorem run_succ_of_step {s t : State} (h : step s = .next t) (n : Nat) :
    Sys2Proof.core.run (n + 1) s = Sys2Proof.core.run n t := by
  have hcore : Sys2Proof.core.step s = .next t := h
  simp only [Host.Core.run, hcore]

theorem run_one (s : State) : Sys2Proof.core.run 1 s = step s := by
  obtain ⟨t, ht⟩ := exists_next_of_step s
  exact (run_succ_of_step ht 0).trans ht.symm

/-- A step that leaves the block ready and a command first, and the step that runs the command. -/
theorem run_two_of_command {s t : State} {c : Command} {rest : List HostInput} (h : step s = .next t)
    (hrsp : t.rsp = none) (hinputs : t.inputs = .command c :: rest) :
    Sys2Proof.core.run 2 s = runCommand c (t.withInputs rest) := by
  rw [run_succ_of_step h, run_one, step_command hinputs hrsp]

/-! ### Commands on the holders alone (R7, R22, R40) -/

/-- `exec_congr` at the port: the state but for the holders and the parameters plays no part. -/
theorem runCommand_congr {s s' : State} (hm : s'.mem = s.mem) (hp : s'.params = s.params) {c : Command} {t : State}
    (h : runCommand c s = .next t) : runCommand c s' = .next { s' with mem := t.mem, rsp := t.rsp } := by
  cases hd : decode c with
  | legal i =>
    rw [runCommand_legal hd] at h ⊢
    exact exec_congr hm hp i h
  | illegal why =>
    rw [runCommand_illegal hd] at h ⊢
    cases h
    rw [State.present_mem, ← hm]
    rfl

/-- What a command does to the holders, and its response, are those of every state with these holders. -/
theorem exists_transact (p : Config.Params) (m : Memory) (c : Command) :
    ∃ m' r, transact p m c = some (m', r) ∧
      ∀ s : State, s.mem = m → s.params = p → runCommand c s = .next { s with mem := m', rsp := some r } := by
  obtain ⟨t, ht, heffect⟩ := runCommand_effect c ⟨m, none, p, [], []⟩
  obtain ⟨r, hr⟩ := heffect.response
  refine ⟨t.mem, r, by simp [transact, ht, hr], fun s hm hp => ?_⟩
  rw [← hr]
  exact runCommand_congr hm hp ht

theorem transactAll_cons {p : Config.Params} {m m' m'' : Memory} {c : Command} {cs : List Command} {r : Response}
    {rs : List Response} (h : transact p m c = some (m', r)) (hs : transactAll p m' cs = some (m'', rs)) :
    transactAll p m (c :: cs) = some (m'', r :: rs) := by
  simp [transactAll, h, hs]

/-- A command and the taking of its response are two steps, which leave the block ready again. -/
theorem run_command_takeResponse {s : State} {c : Command} {is : List HostInput} {m : Memory} {r : Response}
    (hrsp : s.rsp = none) (hinputs : s.inputs = .command c :: .takeResponse :: is)
    (hc : ∀ u : State, u.mem = s.mem → u.params = s.params → runCommand c u = .next { u with mem := m, rsp := some r })
    (n : Nat) :
    Sys2Proof.core.run (n + 2) s = Sys2Proof.core.run n { s with mem := m, inputs := is, taken := s.taken ++ [r] } := by
  have hcommand := (step_command hinputs hrsp).trans (hc _ rfl rfl)
  rw [run_succ_of_step hcommand, run_succ_of_step (step_takeResponse rfl), takeResponse_of_some rfl, ← hrsp]
  rfl

/-! ### The obligations -/

/-- Settles O55: every step answers, writes no parameter, and leaves each holder within its capacity. -/
theorem everyStepKeepsTheInvariant : Obligations.EveryStepKeepsTheInvariant := by
  intro s hs
  obtain ⟨t, ht⟩ := exists_next_of_step s
  exact ⟨t, ht, inv_of_step ht hs⟩

/-- Settles O50: the first step takes the response or resets, and leaves the command first for a block that is
ready. -/
theorem hostMayActWhileACommandWaits : Obligations.HostMayActWhileACommandWaits := by
  refine fun s r c rest hr => ⟨fun hinputs => ?_, fun hinputs => ?_⟩
  · have htake := takeResponse_of_some (s := s.withInputs (.command c :: rest)) hr
    exact run_two_of_command ((step_takeResponse_behind (cs := [c]) hinputs hr).trans (congrArg _ htake)) rfl rfl
  · exact run_two_of_command (step_reset_behind (cs := [c]) hinputs hr) rfl rfl

/-- Settles O53: by what a step can do, and by the effect every command has at the port. -/
theorem everyStepAnswersANextState : Obligations.EveryStepAnswersANextState := by
  refine ⟨exists_next_of_step, fun c s => ?_⟩
  obtain ⟨t, ht, heffect⟩ := runCommand_effect c s
  obtain ⟨r, hr⟩ := heffect.response
  exact ⟨t, r, ht, hr⟩

/-- Settles O56, by induction on the commands: each takes two steps and does to the holders what `transact` does. -/
theorem runIsTheFoldOfItsCommands : Obligations.RunIsTheFoldOfItsCommands := by
  intro cs
  induction cs with
  | nil =>
    intro s rest hrsp hinputs
    have hrest : s.inputs = rest := hinputs
    exact ⟨s.mem, [], rfl, rfl, by simp [Host.Core.run, ← hrest]⟩
  | cons c cs ih =>
    intro s rest hrsp hinputs
    obtain ⟨m', r, htransact, hc⟩ := exists_transact s.params s.mem c
    obtain ⟨m, rs, hall, hlen, hrun⟩ :=
      ih { s with mem := m', inputs := script cs ++ rest, taken := s.taken ++ [r] } rest hrsp rfl
    refine ⟨m, r :: rs, transactAll_cons htransact hall, congrArg (· + 1) hlen, ?_⟩
    rw [List.append_cons]
    exact (run_command_takeResponse hrsp hinputs hc _).trans hrun

/-- Settles O48: a command that is first for a ready block is run, and running it is executing what it decodes to. -/
theorem stepRunsTheDecodedCommand : Obligations.StepRunsTheDecodedCommand := by
  intro s c rest i hinputs hready hd
  rw [step_command hinputs (cmdReady_eq_true_iff.mp hready), runCommand_legal hd]
  rfl

/-- Settles O49: a command leaves a response and nothing else at the ports; behind a pending response commands wait,
and the taking of the response is done before them. -/
theorem oneCommandInFlight : Obligations.OneCommandInFlight := by
  refine ⟨fun s t c rest hinputs hready hstep => ?_, fun s cs hinputs hbusy => ?_, fun s r cs rest hinputs hr => ?_⟩
  · have hrun := (step_command hinputs (cmdReady_eq_true_iff.mp hready)).symm.trans hstep
    have heffect := commandEffect_of_runCommand hrun
    obtain ⟨r, hr⟩ := heffect.response
    obtain ⟨-, hinputs', htaken⟩ := heffect.host
    exact ⟨cmdReady_eq_false_iff.mpr ⟨r, hr⟩, Option.isSome_iff_exists.mpr ⟨r, hr⟩, hinputs', htaken⟩
  · obtain ⟨r, hr⟩ := cmdReady_eq_false_iff.mp hbusy
    exact step_waits hinputs hr
  · exact ⟨_, step_takeResponse_behind hinputs hr, cmdReady_takeResponse _, State.takeResponse_taken_some _ _ hr,
      State.takeResponse_inputs _, State.takeResponse_mem _⟩

/-- Settles O51: the step resets the block, which keeps the host's further inputs and the responses taken. -/
theorem resetEmptiesEveryHolder : Obligations.ResetEmptiesEveryHolder := by
  intro s cs rest hinputs hturn
  exact ⟨_, step_reset_of_turn hinputs hturn, Memory.bv_empty, Memory.cv_empty, rfl, rfl, rfl, rfl⟩

/-- Settles O54: R4's values are within R4's bounds, and empty holders within every capacity. -/
theorem resetMeetsTheInvariant : Obligations.ResetMeetsTheInvariant := by
  have hlegal : Config.Params.default.Legal := by decide
  exact ⟨hlegal, Memory.wf_empty _⟩

end Sys2Proof.Machine
end
